-- ==== Sys2Proof/Word.lean ====
section
/-! DEFINITION. The widths of the block's values (00_scope.md R6 to R10) and the two names it gives the halves of a
mapping register (10_state.md R17). -/

namespace Sys2Proof

/-- Every memory and I/O datum is one byte (`DATA_WIDTH = 8`, R10). -/
abbrev Byte := BitVec 8

/-- A CPU address `A[15:0]` (`CPU_ADDR_WIDTH = 16`, R6). -/
abbrev CpuAddr := BitVec 16

/-- An I/O address as the transaction word carries it (`IO_ADDR_WIDTH = 16`, R13, R51; decision D7). -/
abbrev IoAddr := BitVec 16

/-- A mapping register (`MAP_WIDTH = 16`, R8). -/
abbrev MapReg := BitVec 16

/-- A segment-store offset (`STORE_BITS = 24`, R9). -/
abbrev Offset := BitVec 24

/-- A transaction word `T` (R47). -/
abbrev TWord := BitVec 32

/-- A page number, the index of a mapping register (`PAGE_COUNT = MAP_COUNT = 4`, R7, R8, R16). -/
abbrev Page := Fin 4

/-- The two 8-bit halves of a mapping register: `L` is bits [7:0], `H` is bits [15:8] (R17). -/
inductive Half where
  | low
  | high
  deriving DecidableEq, Repr

end Sys2Proof
end

