-- ==== Sys2Proof/Syntax.lean ====
section
/-! DEFINITION. The transactions, one constructor per row of spec/opcode_table.json (R3, R48, R49, R60). The operands
are those the rules list: bits that a word holds and its rule calls ignored (`data` of reads and lifecycle events,
`addr[15:3]` of lifecycle events) are no operands (R49, R52; log 16). -/

namespace Sys2Proof

/-- One transaction. For a per-port I/O row `pHi` is `P[15:8]`, the part of the I/O address its row does not fix. -/
inductive Instr where
  /-- R89, MRD: memory read at CPU address `a`. -/
  | mrd (a : CpuAddr)
  /-- R90, MWR: memory write of `d` at CPU address `a`. -/
  | mwr (a : CpuAddr) (d : Byte)
  /-- R91, MPK: memory peek at CPU address `a`. -/
  | mpk (a : CpuAddr)
  /-- R69, IOW.F8. -/
  | iowF8 (pHi : Byte) (d : Byte)
  /-- R70, IOW.F9. -/
  | iowF9 (pHi : Byte) (d : Byte)
  /-- R71, IOW.FA. -/
  | iowFA (pHi : Byte) (d : Byte)
  /-- R72, IOW.FB. -/
  | iowFB (pHi : Byte) (d : Byte)
  /-- R73, IOW.FC. -/
  | iowFC (pHi : Byte) (d : Byte)
  /-- R74, IOW.FD. -/
  | iowFD (pHi : Byte) (d : Byte)
  /-- R75, IOW.FE. -/
  | iowFE (pHi : Byte) (d : Byte)
  /-- R76, IOW.FF. -/
  | iowFF (pHi : Byte) (d : Byte)
  /-- R77, IOW.unmapped: I/O write to a port number that is not 0xF8 to 0xFF. -/
  | iowUnmapped (p : IoAddr) (d : Byte)
  /-- R79, IOR.F8. -/
  | iorF8 (pHi : Byte)
  /-- R80, IOR.F9. -/
  | iorF9 (pHi : Byte)
  /-- R81, IOR.FA. -/
  | iorFA (pHi : Byte)
  /-- R82, IOR.FB. -/
  | iorFB (pHi : Byte)
  /-- R83, IOR.FC. -/
  | iorFC (pHi : Byte)
  /-- R84, IOR.FD. -/
  | iorFD (pHi : Byte)
  /-- R85, IOR.FE. -/
  | iorFE (pHi : Byte)
  /-- R86, IOR.FF. -/
  | iorFF (pHi : Byte)
  /-- R87, IOR.unmapped: I/O read of a port number that is not 0xF8 to 0xFF. -/
  | iorUnmapped (p : IoAddr)
  /-- R88, IOP: I/O peek at I/O address `p`. -/
  | iop (p : IoAddr)
  /-- R94, LOAD. -/
  | load
  /-- R95, UNLOAD. -/
  | unload
  /-- R96, PWRUP. -/
  | pwrup
  /-- R97, PWRDN. -/
  | pwrdn
  /-- R98, RST. -/
  | rst
  /-- R99, IDLE. -/
  | idle
  deriving DecidableEq, Repr

end Sys2Proof
end

