-- ==== Sys2Proof/WellFormed.lean ====
section
/-! DEFINITION. Which terms of `Instr` a transaction word can name. Two rows have a side condition: IOW.unmapped and
IOR.unmapped apply only when no per-port row matches (R59, R77, R87). -/

namespace Sys2Proof

/-- A recognised port: an I/O address whose low 8 bits are one of 0xF8 to 0xFF (00_scope.md R11, glossary; R32). -/
abbrev recognised (p : IoAddr) : Prop := 0xF8#8 ≤ p.setWidth 8

/-- The terms that encode a word: an unmapped row's port is not a recognised one. -/
def WellFormed : Instr → Bool
  | .mrd _ => true
  | .mwr _ _ => true
  | .mpk _ => true
  | .iowF8 _ _ => true
  | .iowF9 _ _ => true
  | .iowFA _ _ => true
  | .iowFB _ _ => true
  | .iowFC _ _ => true
  | .iowFD _ _ => true
  | .iowFE _ _ => true
  | .iowFF _ _ => true
  | .iowUnmapped p _ => decide (¬ recognised p)
  | .iorF8 _ => true
  | .iorF9 _ => true
  | .iorFA _ => true
  | .iorFB _ => true
  | .iorFC _ => true
  | .iorFD _ => true
  | .iorFE _ => true
  | .iorFF _ => true
  | .iorUnmapped p => decide (¬ recognised p)
  | .iop _ => true
  | .load => true
  | .unload => true
  | .pwrup => true
  | .pwrdn => true
  | .rst => true
  | .idle => true

end Sys2Proof
end

