-- ==== Sys2Proof/Decode.lean ====
section
/-! DEFINITION. The transaction word (30_encoding.md R47 to R60): its fields, the opcode table, the decoder, and the
encoder written from the same tables. -/

namespace Sys2Proof

/-! ### The fields of a word (R47) -/

/-- `T[31:27]`. -/
def rsvOf (t : TWord) : BitVec 5 := t.extractLsb' 27 5

/-- `T[26:24]`. -/
def kindOf (t : TWord) : BitVec 3 := t.extractLsb' 24 3

/-- `T[23:8]`. -/
def addrOf (t : TWord) : BitVec 16 := t.extractLsb' 8 16

/-- `T[7:0]`. -/
def dataOf (t : TWord) : Byte := t.extractLsb' 0 8

/-- `addr[2:0] = T[10:8]`, the event code of a CTRL word (R49). -/
def eventOf (t : TWord) : BitVec 3 := t.extractLsb' 8 3

/-- `addr[7:0]`, the port number: the only bits of an I/O address that are decoded (R51). -/
def portOf (p : IoAddr) : Byte := p.setWidth 8

/-- `addr[15:8]`, the part of an I/O address that is not decoded (R51). -/
def portHighOf (p : IoAddr) : Byte := p.extractLsb' 8 8

/-! ### The decoder -/

/-- Why a word names no transaction: the three cases of R55. -/
inductive DecodeError where
  /-- `T[31:27] != 0`. -/
  | reservedBits
  /-- `kind = 111`. -/
  | reservedKind
  /-- `kind = 110` with `addr[2:0] = 110` or `111`. -/
  | reservedEvent
  deriving DecidableEq, Repr

/-- Steps 2 and 3 of R59 for IOW: a per-port row if one matches, else the unmapped row. -/
def decodeIow (p : IoAddr) (d : Byte) : Instr :=
  if portOf p = 0xF8#8 then .iowF8 (portHighOf p) d
  else if portOf p = 0xF9#8 then .iowF9 (portHighOf p) d
  else if portOf p = 0xFA#8 then .iowFA (portHighOf p) d
  else if portOf p = 0xFB#8 then .iowFB (portHighOf p) d
  else if portOf p = 0xFC#8 then .iowFC (portHighOf p) d
  else if portOf p = 0xFD#8 then .iowFD (portHighOf p) d
  else if portOf p = 0xFE#8 then .iowFE (portHighOf p) d
  else if portOf p = 0xFF#8 then .iowFF (portHighOf p) d
  else .iowUnmapped p d

/-- Steps 2 and 3 of R59 for IOR. -/
def decodeIor (p : IoAddr) : Instr :=
  if portOf p = 0xF8#8 then .iorF8 (portHighOf p)
  else if portOf p = 0xF9#8 then .iorF9 (portHighOf p)
  else if portOf p = 0xFA#8 then .iorFA (portHighOf p)
  else if portOf p = 0xFB#8 then .iorFB (portHighOf p)
  else if portOf p = 0xFC#8 then .iorFC (portHighOf p)
  else if portOf p = 0xFD#8 then .iorFD (portHighOf p)
  else if portOf p = 0xFE#8 then .iorFE (portHighOf p)
  else if portOf p = 0xFF#8 then .iorFF (portHighOf p)
  else .iorUnmapped p

/-- The lifecycle event a CTRL word selects (R49). -/
def decodeEvent (e : BitVec 3) : Except DecodeError Instr :=
  if e = 0b000#3 then .ok .load
  else if e = 0b001#3 then .ok .unload
  else if e = 0b010#3 then .ok .pwrup
  else if e = 0b011#3 then .ok .pwrdn
  else if e = 0b100#3 then .ok .rst
  else if e = 0b101#3 then .ok .idle
  else .error .reservedEvent

/-- The decoder of R59, with the kinds of R48: total on every word, a reserved word rejected by name (R55). -/
def decode (t : TWord) : Except DecodeError Instr :=
  if rsvOf t ≠ 0#5 then .error .reservedBits
  else if kindOf t = 0b000#3 then .ok (.mrd (addrOf t))
  else if kindOf t = 0b001#3 then .ok (.mwr (addrOf t) (dataOf t))
  else if kindOf t = 0b010#3 then .ok (.mpk (addrOf t))
  else if kindOf t = 0b011#3 then .ok (decodeIor (addrOf t))
  else if kindOf t = 0b100#3 then .ok (decodeIow (addrOf t) (dataOf t))
  else if kindOf t = 0b101#3 then .ok (.iop (addrOf t))
  else if kindOf t = 0b110#3 then decodeEvent (eventOf t)
  else .error .reservedKind

/-- What the decoder reads from an opcode-table word of `nbits` bits `w`, bit 0 the least significant. Every
transaction is one 32-bit word (R47), so no word is longer and the bits above `nbits` are 0 (log 15). -/
def decodeTableWord (nbits w : Nat) : Option Instr :=
  if nbits ≤ 32 ∧ w < 2 ^ nbits then (decode (BitVec.ofNat 32 w)).toOption else none

/-! ### The encoder -/

/-- A word from its fields: `rsv = 0`, then `kind`, `addr`, `data` (R47). -/
def assemble (kind : BitVec 3) (addr : BitVec 16) (data : Byte) : TWord := 0#5 ++ kind ++ addr ++ data

/-- An I/O address from its ignored and its decoded byte (R51). -/
def ioAddr (pHi port : Byte) : IoAddr := pHi ++ port

/-- The event code of a lifecycle event as an `addr` field, its ignored bits zero (R49). -/
def eventAddr (e : BitVec 3) : BitVec 16 := 0#13 ++ e

/-- The word of a transaction, every ignored bit zero. -/
def encode : Instr → TWord
  | .mrd a => assemble 0b000#3 a 0#8
  | .mwr a d => assemble 0b001#3 a d
  | .mpk a => assemble 0b010#3 a 0#8
  | .iowF8 pHi d => assemble 0b100#3 (ioAddr pHi 0xF8#8) d
  | .iowF9 pHi d => assemble 0b100#3 (ioAddr pHi 0xF9#8) d
  | .iowFA pHi d => assemble 0b100#3 (ioAddr pHi 0xFA#8) d
  | .iowFB pHi d => assemble 0b100#3 (ioAddr pHi 0xFB#8) d
  | .iowFC pHi d => assemble 0b100#3 (ioAddr pHi 0xFC#8) d
  | .iowFD pHi d => assemble 0b100#3 (ioAddr pHi 0xFD#8) d
  | .iowFE pHi d => assemble 0b100#3 (ioAddr pHi 0xFE#8) d
  | .iowFF pHi d => assemble 0b100#3 (ioAddr pHi 0xFF#8) d
  | .iowUnmapped p d => assemble 0b100#3 p d
  | .iorF8 pHi => assemble 0b011#3 (ioAddr pHi 0xF8#8) 0#8
  | .iorF9 pHi => assemble 0b011#3 (ioAddr pHi 0xF9#8) 0#8
  | .iorFA pHi => assemble 0b011#3 (ioAddr pHi 0xFA#8) 0#8
  | .iorFB pHi => assemble 0b011#3 (ioAddr pHi 0xFB#8) 0#8
  | .iorFC pHi => assemble 0b011#3 (ioAddr pHi 0xFC#8) 0#8
  | .iorFD pHi => assemble 0b011#3 (ioAddr pHi 0xFD#8) 0#8
  | .iorFE pHi => assemble 0b011#3 (ioAddr pHi 0xFE#8) 0#8
  | .iorFF pHi => assemble 0b011#3 (ioAddr pHi 0xFF#8) 0#8
  | .iorUnmapped p => assemble 0b011#3 p 0#8
  | .iop p => assemble 0b101#3 p 0#8
  | .load => assemble 0b110#3 (eventAddr 0b000#3) 0#8
  | .unload => assemble 0b110#3 (eventAddr 0b001#3) 0#8
  | .pwrup => assemble 0b110#3 (eventAddr 0b010#3) 0#8
  | .pwrdn => assemble 0b110#3 (eventAddr 0b011#3) 0#8
  | .rst => assemble 0b110#3 (eventAddr 0b100#3) 0#8
  | .idle => assemble 0b110#3 (eventAddr 0b101#3) 0#8

/-! ### The opcode table (R60), as data -/

/-- A row of the table: a word `t` matches it when `t & mask = pattern`. -/
structure OpcodeRow where
  mnemonic : String
  pattern : TWord
  mask : TWord
  deriving DecidableEq, Repr

/-- The row's match, the test of R59 step 2. -/
def OpcodeRow.hits (r : OpcodeRow) (t : TWord) : Bool := t &&& r.mask == r.pattern

/-- The row of each transaction, as the rules R69 to R99 and the table give its match and mask. -/
def rowOf : Instr → OpcodeRow
  | .mrd _ => ⟨"MRD", 0x00000000#32, 0xFF000000#32⟩
  | .mwr _ _ => ⟨"MWR", 0x01000000#32, 0xFF000000#32⟩
  | .mpk _ => ⟨"MPK", 0x02000000#32, 0xFF000000#32⟩
  | .iowF8 _ _ => ⟨"IOW.F8", 0x0400F800#32, 0xFF00FF00#32⟩
  | .iowF9 _ _ => ⟨"IOW.F9", 0x0400F900#32, 0xFF00FF00#32⟩
  | .iowFA _ _ => ⟨"IOW.FA", 0x0400FA00#32, 0xFF00FF00#32⟩
  | .iowFB _ _ => ⟨"IOW.FB", 0x0400FB00#32, 0xFF00FF00#32⟩
  | .iowFC _ _ => ⟨"IOW.FC", 0x0400FC00#32, 0xFF00FF00#32⟩
  | .iowFD _ _ => ⟨"IOW.FD", 0x0400FD00#32, 0xFF00FF00#32⟩
  | .iowFE _ _ => ⟨"IOW.FE", 0x0400FE00#32, 0xFF00FF00#32⟩
  | .iowFF _ _ => ⟨"IOW.FF", 0x0400FF00#32, 0xFF00FF00#32⟩
  | .iowUnmapped _ _ => ⟨"IOW.unmapped", 0x04000000#32, 0xFF000000#32⟩
  | .iorF8 _ => ⟨"IOR.F8", 0x0300F800#32, 0xFF00FF00#32⟩
  | .iorF9 _ => ⟨"IOR.F9", 0x0300F900#32, 0xFF00FF00#32⟩
  | .iorFA _ => ⟨"IOR.FA", 0x0300FA00#32, 0xFF00FF00#32⟩
  | .iorFB _ => ⟨"IOR.FB", 0x0300FB00#32, 0xFF00FF00#32⟩
  | .iorFC _ => ⟨"IOR.FC", 0x0300FC00#32, 0xFF00FF00#32⟩
  | .iorFD _ => ⟨"IOR.FD", 0x0300FD00#32, 0xFF00FF00#32⟩
  | .iorFE _ => ⟨"IOR.FE", 0x0300FE00#32, 0xFF00FF00#32⟩
  | .iorFF _ => ⟨"IOR.FF", 0x0300FF00#32, 0xFF00FF00#32⟩
  | .iorUnmapped _ => ⟨"IOR.unmapped", 0x03000000#32, 0xFF000000#32⟩
  | .iop _ => ⟨"IOP", 0x05000000#32, 0xFF000000#32⟩
  | .load => ⟨"LOAD", 0x06000000#32, 0xFF000700#32⟩
  | .unload => ⟨"UNLOAD", 0x06000100#32, 0xFF000700#32⟩
  | .pwrup => ⟨"PWRUP", 0x06000200#32, 0xFF000700#32⟩
  | .pwrdn => ⟨"PWRDN", 0x06000300#32, 0xFF000700#32⟩
  | .rst => ⟨"RST", 0x06000400#32, 0xFF000700#32⟩
  | .idle => ⟨"IDLE", 0x06000500#32, 0xFF000700#32⟩

/-- The 28 rows in the table's order; each unmapped row stands after its per-port rows, so the first row that matches
is the decode of R59. -/
def opcodeRows : List OpcodeRow :=
  [.mrd 0, .mwr 0 0, .mpk 0, .iowF8 0 0, .iowF9 0 0, .iowFA 0 0, .iowFB 0 0, .iowFC 0 0, .iowFD 0 0, .iowFE 0 0,
    .iowFF 0 0, .iowUnmapped 0 0, .iorF8 0, .iorF9 0, .iorFA 0, .iorFB 0, .iorFC 0, .iorFD 0, .iorFE 0, .iorFF 0,
    .iorUnmapped 0, .iop 0, .load, .unload, .pwrup, .pwrdn, .rst, .idle].map rowOf

/-- The bits of a word that its row gives a meaning: the fixed bits and the operands (R47, R49, R51, R52; D19). The
others are ignored. -/
def caredBits : Instr → TWord
  | .mrd _ => 0xFFFFFF00#32
  | .mwr _ _ => 0xFFFFFFFF#32
  | .mpk _ => 0xFFFFFF00#32
  | .iowF8 _ _ => 0xFFFFFFFF#32
  | .iowF9 _ _ => 0xFFFFFFFF#32
  | .iowFA _ _ => 0xFFFFFFFF#32
  | .iowFB _ _ => 0xFFFFFFFF#32
  | .iowFC _ _ => 0xFFFFFFFF#32
  | .iowFD _ _ => 0xFFFFFFFF#32
  | .iowFE _ _ => 0xFFFFFFFF#32
  | .iowFF _ _ => 0xFFFFFFFF#32
  | .iowUnmapped _ _ => 0xFFFFFFFF#32
  | .iorF8 _ => 0xFFFFFF00#32
  | .iorF9 _ => 0xFFFFFF00#32
  | .iorFA _ => 0xFFFFFF00#32
  | .iorFB _ => 0xFFFFFF00#32
  | .iorFC _ => 0xFFFFFF00#32
  | .iorFD _ => 0xFFFFFF00#32
  | .iorFE _ => 0xFFFFFF00#32
  | .iorFF _ => 0xFFFFFF00#32
  | .iorUnmapped _ => 0xFFFFFF00#32
  | .iop _ => 0xFFFFFF00#32
  | .load => 0xFF000700#32
  | .unload => 0xFF000700#32
  | .pwrup => 0xFF000700#32
  | .pwrdn => 0xFF000700#32
  | .rst => 0xFF000700#32
  | .idle => 0xFF000700#32

end Sys2Proof
end

