-- ==== Sys2Proof/Config.lean ====
section
/-! DEFINITION. What is fixed for the machine and what the spec leaves free (00_scope.md R6 to R13; the parameter table
of 92_eei_decisions.md). The VALUES this hardware gives its parameters (the port table, `RESET_CLEARS_MAP`) stand in
Machine/Params.lean. -/

namespace Sys2Proof

/-- `STORE_SIZE = 2^24` bytes (R9, R21): offsets are 0 to `storeSize - 1`. -/
abbrev Config.storeSize : Nat := 2 ^ 24

/-- The type of the parameter `PORT_MAP` (R13, R26; decision D12): which half of which register a port number names,
if any. -/
abbrev PortMap := Byte → Option (Page × Half)

/-- FREE VALUE (log 5). `SEG_INIT` (R13, R21; decision D11): the byte at each offset of the segment store at a LOAD.
The first argument names the draw: each successful LOAD takes a new one (decision D14). It has no body: no proof can
see a value of it. -/
opaque Config.segInit : Nat → Offset → Byte

end Sys2Proof
end

