-- ==== Sys2Proof/Machine/Params.lean ====
section
/-! DEFINITION. The values this hardware gives the spec's named parameters (00_scope.md R12, R13; the parameter table of
92_eei_decisions.md). -/

namespace Sys2Proof.Machine

/-- `UNMAPPED_READ_VALUE` (R12). -/
def unmappedReadValue : Byte := 0xFF#8

/-- `RESET_CLEARS_MAP`, `false` for this hardware (R13; decision D10; log 10). -/
def resetClearsMap : Bool := false

/-- The port table of R68: port number, page, half. -/
def portTable : List (Byte × Page × Half) :=
  [(0xF8#8, 3, .high), (0xF9#8, 2, .high), (0xFA#8, 1, .high), (0xFB#8, 0, .high),
    (0xFC#8, 3, .low), (0xFD#8, 2, .low), (0xFE#8, 1, .low), (0xFF#8, 0, .low)]

/-- `PORT_MAP`, the table of R68 for this hardware (decision D12; log 11). The write path and the read-back path share
it. -/
def portMap : PortMap := fun port => portTable.lookup port

end Sys2Proof.Machine
end

