-- ==== Sys2Proof/Machine/State.lean ====
section
/-! DEFINITION. The state (10_state.md R15 to R26), the ways a step can stop, and the state before the first LOAD. -/

namespace Sys2Proof.Machine

/-- Whether the block is attached and takes transactions (R20). -/
inductive Phase where
  | unloaded
  | active
  deriving DecidableEq, Repr

/-- The mapping-register file: exactly four 16-bit registers, indexed by page (R16). -/
abbrev MapFile := Vector MapReg 4

/-- The written part of the segment store, as (offset, byte) pairs with rising offsets. An offset that is not listed
holds the byte of the current SEG_INIT draw (R21; logs 5 and 6). -/
abbrev Memory := List Host.Cell

/-- One transaction as the host delivers it: its word (R47), and the outcome of the version check, which LOAD takes as
an input (R101, R115; log 9). -/
structure Request where
  word : TWord
  versionOk : Bool
  deriving DecidableEq, Repr

/-- LOAD's and UNLOAD's status (R94, R95, R101). -/
inductive Status where
  | ok
  | fail
  deriving DecidableEq, Repr

/-- What the block returns to the host: a byte for MRD, MPK, IOR and IOP, a status for LOAD and UNLOAD; the other
transactions return nothing (R115). -/
inductive Reply where
  | byte (b : Byte)
  | status (st : Status)
  deriving DecidableEq, Repr

/-- `phase`, `map` and `store` are the block's three parts (R15). `draw` names the SEG_INIT draw (log 5). `versionOk`,
`input` and `output` are the host interface (R46, R115; logs 1, 2 and 9). -/
structure State where
  /-- `phase` (R20). -/
  phase : Phase
  /-- `MAP[0..3]` (R16). -/
  map : MapFile
  /-- `STORE` (R21). -/
  store : Memory
  /-- The MODEL's own: which SEG_INIT draw unwritten offsets hold. -/
  draw : Nat
  /-- The host's input: the version check's outcome, presented with the transaction that runs. -/
  versionOk : Bool
  /-- The host's input: the transactions not yet taken, oldest first. -/
  input : List Request
  /-- The results returned to the host, newest first. -/
  output : List Reply
  deriving DecidableEq, Repr

/-- The block raises no exception and no step faults (R102, R103): there is no fault to name (log 23). -/
inductive Fault where
  deriving DecidableEq, Repr

/-- The refusals of R103. All are safe: no real host delivers what they refuse. -/
inductive Refusal where
  /-- Raised by `exec` for an instruction with no meaning yet; safe. No arm raises it. -/
  | notModelled (mnemonic : String)
  /-- Raised by `step` for a word that names no transaction (R55); safe. -/
  | reservedEncoding
  /-- Raised by every transaction but LOAD while the phase is UNLOADED (R20, R95); safe. -/
  | notActive
  /-- Raised by LOAD while the phase is ACTIVE (R94); safe. -/
  | alreadyActive
  deriving DecidableEq, Repr

/-- A register file of four zero registers (R94, R116). -/
def MapFile.zero : MapFile := #v[0x0000#16, 0x0000#16, 0x0000#16, 0x0000#16]

/-- The machine before the first LOAD: `phase` UNLOADED (R20), nothing delivered, nothing returned. The LOAD transaction
is what brings the block to the state of R116 (log 3). `MAP` before LOAD is a DESIGN CHOICE (log 4), as are `draw`
(log 5) and `versionOk` (log 9). -/
def State.reset : State where
  phase := .unloaded
  map := MapFile.zero
  store := []
  draw := 0
  versionOk := false
  input := []
  output := []

end Sys2Proof.Machine
end

