-- ==== Sys2Proof/Machine/Operands.lean ====
section
/-! DEFINITION. The operand forms: the CPU address and its translation (30_encoding.md R50, 40_translator.md R61 to R66,
43_memory_access.md R93), the I/O address and its port (R51, R68), and the halves of a mapping register (R14, R17). -/

namespace Sys2Proof.Machine

/-! ### The CPU address -/

/-- `A >> 14 = A[15:14]`, the page (R50). -/
def pageOf (a : CpuAddr) : Page := (a.extractLsb' 14 2).toFin

/-- The page-select multiplexer: the current value of the selected register (R62). -/
def pageSelect (m : MapFile) (a : CpuAddr) : MapReg := m.get (pageOf a)

/-- The segment-base shift-and-mask (R61): `((segment << 14) | (A & 0x3FFF)) & 0xFFFFFF`, the shift and the OR on 30
bits. -/
def shiftAndMask (segment : MapReg) (a : CpuAddr) : Offset :=
  let raw : BitVec 30 := segment.setWidth 30 <<< 14 ||| (a &&& 0x3FFF#16).setWidth 30
  (raw &&& 0xFFFFFF#30).setWidth 24

/-- TRANSLATE (R61), the one addressing mode of the memory transactions (R93). -/
def translateAddr (m : MapFile) (a : CpuAddr) : Offset := shiftAndMask (pageSelect m a) a

/-! ### The halves of a mapping register -/

/-- `v.L = v[7:0]`, `v.H = v[15:8]` (R14, R17). -/
def halfOf (h : Half) (v : MapReg) : Byte :=
  match h with
  | .low => v.extractLsb' 0 8
  | .high => v.extractLsb' 8 8

/-- `v.H <- b` or `v.L <- b`: the other half is unchanged (R14). -/
def withHalf (h : Half) (b : Byte) (v : MapReg) : MapReg :=
  match h with
  | .low => halfOf .high v ++ b
  | .high => b ++ halfOf .low v

/-! ### The I/O address -/

/-- DECODE_PORT (R68): only `P[7:0]` is decoded (R51). `pm` is the parameter `PORT_MAP`. -/
def decodePort (pm : PortMap) (p : IoAddr) : Option (Page × Half) := pm (portOf p)

end Sys2Proof.Machine
end

