-- ==== Sys2Proof/Machine/Ops.lean ====
section
/-! DEFINITION. The shared operations over the segment store, the register file, the phase and the host interface.
TAKING AN EXCEPTION AND RETURNING FROM ONE: the block has neither (60_exceptions.md R103, R106, R107), so no operation
here saves or restores anything. -/

namespace Sys2Proof.Machine

/-! ### The segment store as a list of cells -/

/-- The byte listed at an offset, if any. -/
def Memory.read? : Memory → Nat → Option Byte
  | [], _ => none
  | (k, v) :: m, o => if k = o then some v else Memory.read? m o

/-- List the byte `b` at the offset `o`, keeping the offsets rising. -/
def Memory.write : Memory → Nat → Byte → Memory
  | [], o, b => [(o, b)]
  | (k, v) :: m, o, b =>
    if o < k then (o, b) :: (k, v) :: m
    else if o = k then (o, b) :: m
    else (k, v) :: Memory.write m o b

/-- The canonical form: offsets strictly rising, each an index of the store (R21). An unlisted offset has no fixed value
(R21), so no entry can equal it and there is nothing to leave out (log 6). -/
abbrev Memory.wf (m : Memory) : Prop :=
  m.Pairwise (fun x y => x.1 < y.1) ∧ ∀ c ∈ m, c.1 < Config.storeSize

/-! ### MemRead and MemWrite (R14), the only memory primitives -/

/-- What an unlisted offset reads as: the byte of the current SEG_INIT draw, a free value (R21, R40; log 5). -/
def unwrittenByte (s : State) (off : Offset) : Byte := Config.segInit s.draw off

/-- `MemRead(off, 1)`: the byte of the most recent write to `off`, or `SEG_INIT(off)` if there was none (R14, R40). -/
def memRead (off : Offset) (s : State) : Byte := (s.store.read? off.toNat).getD (unwrittenByte s off)

/-- `MemWrite(off, 1, b)` (R14). -/
def memWrite (off : Offset) (b : Byte) (s : State) : State := { s with store := s.store.write off.toNat b }

/-! ### The mapping-register file -/

/-- `MAP[p].L` or `MAP[p].H` (R14). -/
def mapHalf (p : Page) (h : Half) (s : State) : Byte := halfOf h (s.map.get p)

/-- `MAP[p].L <- b` or `MAP[p].H <- b` (R14). -/
def setMapHalf (p : Page) (h : Half) (b : Byte) (s : State) : State :=
  { s with map := s.map.set p (withHalf h b (s.map.get p)) }

/-- `MAP[0..3] <- 0x0000` (R94, R96, R98). -/
def clearMap (s : State) : State := { s with map := MapFile.zero }

/-! ### The port decoder's two paths (R67, R78), sharing one port map (R68) -/

/-- An I/O write: one half of one register for a recognised port, otherwise a no-op (R67). -/
def ioWrite (pm : PortMap) (p : IoAddr) (d : Byte) (s : State) : State :=
  match decodePort pm p with
  | some (page, half) => setMapHalf page half d s
  | none => s

/-- The byte an I/O read returns: the half of the register for a recognised port, otherwise 0xFF (R78). -/
def ioRead (pm : PortMap) (p : IoAddr) (s : State) : Byte :=
  match decodePort pm p with
  | some (page, half) => mapHalf page half s
  | none => unmappedReadValue

/-! ### The phase -/

/-- Every transaction but LOAD is refused while the phase is UNLOADED (R20). -/
def whenActive (s : State) (o : Host.Outcome State Fault Refusal) : Host.Outcome State Fault Refusal :=
  match s.phase with
  | .active => o
  | .unloaded => .refused .notActive

/-- What a successful LOAD initialises: four zero registers, a fresh draw of the store, phase ACTIVE (R94, R116; decision
D14). -/
def initialise (s : State) : State :=
  { s with phase := .active, map := MapFile.zero, store := [], draw := s.draw + 1 }

/-- UNLOAD's effect on the state: `phase <- UNLOADED`. The registers and the store can no longer be observed; their
fields stay as they are (R95; log 7). -/
def detach (s : State) : State := { s with phase := .unloaded }

/-- What RST and PWRUP do, with `clears` the parameter `RESET_CLEARS_MAP` (R96, R98, R117). -/
def powerOrReset (clears : Bool) (s : State) : State := if clears then clearMap s else s

/-! ### The host interface -/

/-- Return a result to the host. -/
def reply (r : Reply) (s : State) : State := { s with output := r :: s.output }

/-- Take the oldest pending transaction: it leaves the queue, and its version-check outcome is presented (R101, R115). -/
def accept (r : Request) (rest : List Request) (s : State) : State :=
  { s with input := rest, versionOk := r.versionOk }

/-- The host delivers one more transaction, after those pending (R40, R109). -/
def deliver (r : Request) (s : State) : State := { s with input := s.input ++ [r] }

/-- Put the block in the phase in which the host may deliver the word's transaction (R20, R94, R115): a block that is not
attached is attached by a LOAD for every transaction but LOAD, an attached one is detached for LOAD. A reserved word
needs no phase (R105). -/
def preparePhase (t : TWord) (s : State) : State :=
  match decode t, s.phase with
  | .ok .load, .active => detach s
  | .ok .load, .unloaded => s
  | .ok _, .unloaded => initialise s
  | .ok _, .active => s
  | .error _, _ => s

/-- Deliver a word ahead of those pending, its version check passing, in the phase it needs (log 17). -/
def deliverNext (t : TWord) (s : State) : State :=
  let s' := preparePhase t s
  { s' with input := ⟨t, true⟩ :: s'.input }

/-- No transaction is pending: the block has no step of its own, so nothing changes (R22, R109; log 1). -/
def await (s : State) : Host.Outcome State Fault Refusal := .next s

/-- The status code a LOAD returns: 0 on success, -1 on a version mismatch (R101). -/
def statusCode : Status → Int
  | .ok => 0
  | .fail => -1

end Sys2Proof.Machine
end

