-- ==== Sys2Proof/Machine/Lifecycle.lean ====
section
/-! DEFINITION. The lifecycle events (44_lifecycle.md R94 to R101). -/

namespace Sys2Proof.Machine

/-- R94, LOAD: refused while ACTIVE; FAIL with no state change if the version check fails (R101); otherwise the block is
initialised and OK returned. -/
def execLoad (s : State) : Host.Outcome State Fault Refusal :=
  match s.phase with
  | .active => .refused .alreadyActive
  | .unloaded =>
    if s.versionOk then .next (reply (.status .ok) (initialise s)) else .next (reply (.status .fail) s)

/-- R95, UNLOAD: `phase <- UNLOADED`, return OK; it always succeeds (decision D13; log 8). -/
def execUnload (s : State) : Host.Outcome State Fault Refusal :=
  whenActive s (.next (reply (.status .ok) (detach s)))

/-- R96, PWRUP: clears the registers only if `RESET_CLEARS_MAP`. -/
def execPwrup (s : State) : Host.Outcome State Fault Refusal :=
  whenActive s (.next (powerOrReset resetClearsMap s))

/-- R97, PWRDN: no state changes, with either value of `RESET_CLEARS_MAP`. -/
def execPwrdn (s : State) : Host.Outcome State Fault Refusal :=
  whenActive s (.next s)

/-- R98, RST: clears the registers only if `RESET_CLEARS_MAP`. -/
def execRst (s : State) : Host.Outcome State Fault Refusal :=
  whenActive s (.next (powerOrReset resetClearsMap s))

/-- R99, IDLE: no state changes. -/
def execIdle (s : State) : Host.Outcome State Fault Refusal :=
  whenActive s (.next s)

end Sys2Proof.Machine
end

