-- ==== Sys2Proof/Machine/MemoryAccess.lean ====
section
/-! DEFINITION. The memory-access entry points (43_memory_access.md R89 to R93). -/

namespace Sys2Proof.Machine

/-- R89, MRD: return `MemRead(TRANSLATE(A), 1)`. -/
def execMrd (a : CpuAddr) (s : State) : Host.Outcome State Fault Refusal :=
  whenActive s (.next (reply (.byte (memRead (translateAddr s.map a) s)) s))

/-- R90, MWR: `MemWrite(TRANSLATE(A), 1, d)`; every offset is writable. -/
def execMwr (a : CpuAddr) (d : Byte) (s : State) : Host.Outcome State Fault Refusal :=
  whenActive s (.next (memWrite (translateAddr s.map a) d s))

/-- R91, MPK: return `MemRead(TRANSLATE(A), 1)`; no observable side effect. -/
def execMpk (a : CpuAddr) (s : State) : Host.Outcome State Fault Refusal :=
  whenActive s (.next (reply (.byte (memRead (translateAddr s.map a) s)) s))

end Sys2Proof.Machine
end

