-- ==== Sys2Proof/Machine/PortRead.lean ====
section
/-! DEFINITION. IOR and IOP, the port decoder's read-back path (42_port_read.md R78 to R88). -/

namespace Sys2Proof.Machine

/-- R79, IOR.F8: return `MAP[3].H`, through the port map. -/
def execIorF8 (pHi : Byte) (s : State) : Host.Outcome State Fault Refusal :=
  whenActive s (.next (reply (.byte (ioRead portMap (ioAddr pHi 0xF8#8) s)) s))

/-- R80, IOR.F9: return `MAP[2].H`, through the port map. -/
def execIorF9 (pHi : Byte) (s : State) : Host.Outcome State Fault Refusal :=
  whenActive s (.next (reply (.byte (ioRead portMap (ioAddr pHi 0xF9#8) s)) s))

/-- R81, IOR.FA: return `MAP[1].H`, through the port map. -/
def execIorFA (pHi : Byte) (s : State) : Host.Outcome State Fault Refusal :=
  whenActive s (.next (reply (.byte (ioRead portMap (ioAddr pHi 0xFA#8) s)) s))

/-- R82, IOR.FB: return `MAP[0].H`, through the port map. -/
def execIorFB (pHi : Byte) (s : State) : Host.Outcome State Fault Refusal :=
  whenActive s (.next (reply (.byte (ioRead portMap (ioAddr pHi 0xFB#8) s)) s))

/-- R83, IOR.FC: return `MAP[3].L`, through the port map. -/
def execIorFC (pHi : Byte) (s : State) : Host.Outcome State Fault Refusal :=
  whenActive s (.next (reply (.byte (ioRead portMap (ioAddr pHi 0xFC#8) s)) s))

/-- R84, IOR.FD: return `MAP[2].L`, through the port map. -/
def execIorFD (pHi : Byte) (s : State) : Host.Outcome State Fault Refusal :=
  whenActive s (.next (reply (.byte (ioRead portMap (ioAddr pHi 0xFD#8) s)) s))

/-- R85, IOR.FE: return `MAP[1].L`, through the port map. -/
def execIorFE (pHi : Byte) (s : State) : Host.Outcome State Fault Refusal :=
  whenActive s (.next (reply (.byte (ioRead portMap (ioAddr pHi 0xFE#8) s)) s))

/-- R86, IOR.FF: return `MAP[0].L`, through the port map. -/
def execIorFF (pHi : Byte) (s : State) : Host.Outcome State Fault Refusal :=
  whenActive s (.next (reply (.byte (ioRead portMap (ioAddr pHi 0xFF#8) s)) s))

/-- R87, IOR.unmapped: return 0xFF. -/
def execIorUnmapped (_p : IoAddr) (s : State) : Host.Outcome State Fault Refusal :=
  whenActive s (.next (reply (.byte unmappedReadValue) s))

/-- R88, IOP: return what IOR with the same `P` returns; no state changes (decision D9; log 14). -/
def execIop (p : IoAddr) (s : State) : Host.Outcome State Fault Refusal :=
  whenActive s (.next (reply (.byte (ioRead portMap p s)) s))

end Sys2Proof.Machine
end

