-- ==== Sys2Proof/Machine/PortWrite.lean ====
section
/-! DEFINITION. IOW, the port decoder's write path (41_port_write.md R67 to R77). -/

namespace Sys2Proof.Machine

/-- R69, IOW.F8: `MAP[3].H <- d`, through the port map. -/
def execIowF8 (pHi d : Byte) (s : State) : Host.Outcome State Fault Refusal :=
  whenActive s (.next (ioWrite portMap (ioAddr pHi 0xF8#8) d s))

/-- R70, IOW.F9: `MAP[2].H <- d`, through the port map. -/
def execIowF9 (pHi d : Byte) (s : State) : Host.Outcome State Fault Refusal :=
  whenActive s (.next (ioWrite portMap (ioAddr pHi 0xF9#8) d s))

/-- R71, IOW.FA: `MAP[1].H <- d`, through the port map. -/
def execIowFA (pHi d : Byte) (s : State) : Host.Outcome State Fault Refusal :=
  whenActive s (.next (ioWrite portMap (ioAddr pHi 0xFA#8) d s))

/-- R72, IOW.FB: `MAP[0].H <- d`, through the port map. -/
def execIowFB (pHi d : Byte) (s : State) : Host.Outcome State Fault Refusal :=
  whenActive s (.next (ioWrite portMap (ioAddr pHi 0xFB#8) d s))

/-- R73, IOW.FC: `MAP[3].L <- d`, through the port map. -/
def execIowFC (pHi d : Byte) (s : State) : Host.Outcome State Fault Refusal :=
  whenActive s (.next (ioWrite portMap (ioAddr pHi 0xFC#8) d s))

/-- R74, IOW.FD: `MAP[2].L <- d`, through the port map. -/
def execIowFD (pHi d : Byte) (s : State) : Host.Outcome State Fault Refusal :=
  whenActive s (.next (ioWrite portMap (ioAddr pHi 0xFD#8) d s))

/-- R75, IOW.FE: `MAP[1].L <- d`, through the port map. -/
def execIowFE (pHi d : Byte) (s : State) : Host.Outcome State Fault Refusal :=
  whenActive s (.next (ioWrite portMap (ioAddr pHi 0xFE#8) d s))

/-- R76, IOW.FF: `MAP[0].L <- d`, through the port map. -/
def execIowFF (pHi d : Byte) (s : State) : Host.Outcome State Fault Refusal :=
  whenActive s (.next (ioWrite portMap (ioAddr pHi 0xFF#8) d s))

/-- R77, IOW.unmapped: no state changes. -/
def execIowUnmapped (_p : IoAddr) (_d : Byte) (s : State) : Host.Outcome State Fault Refusal :=
  whenActive s (.next s)

end Sys2Proof.Machine
end

