-- ==== Sys2Proof/Machine/Dispatch.lean ====
section
/-! DEFINITION. One arm per transaction. -/

namespace Sys2Proof.Machine

def exec (i : Instr) (s : State) : Host.Outcome State Fault Refusal :=
  match i with
  | .mrd a => Sys2Proof.Machine.execMrd a s
  | .mwr a d => Sys2Proof.Machine.execMwr a d s
  | .mpk a => Sys2Proof.Machine.execMpk a s
  | .iowF8 pHi d => Sys2Proof.Machine.execIowF8 pHi d s
  | .iowF9 pHi d => Sys2Proof.Machine.execIowF9 pHi d s
  | .iowFA pHi d => Sys2Proof.Machine.execIowFA pHi d s
  | .iowFB pHi d => Sys2Proof.Machine.execIowFB pHi d s
  | .iowFC pHi d => Sys2Proof.Machine.execIowFC pHi d s
  | .iowFD pHi d => Sys2Proof.Machine.execIowFD pHi d s
  | .iowFE pHi d => Sys2Proof.Machine.execIowFE pHi d s
  | .iowFF pHi d => Sys2Proof.Machine.execIowFF pHi d s
  | .iowUnmapped p d => Sys2Proof.Machine.execIowUnmapped p d s
  | .iorF8 pHi => Sys2Proof.Machine.execIorF8 pHi s
  | .iorF9 pHi => Sys2Proof.Machine.execIorF9 pHi s
  | .iorFA pHi => Sys2Proof.Machine.execIorFA pHi s
  | .iorFB pHi => Sys2Proof.Machine.execIorFB pHi s
  | .iorFC pHi => Sys2Proof.Machine.execIorFC pHi s
  | .iorFD pHi => Sys2Proof.Machine.execIorFD pHi s
  | .iorFE pHi => Sys2Proof.Machine.execIorFE pHi s
  | .iorFF pHi => Sys2Proof.Machine.execIorFF pHi s
  | .iorUnmapped p => Sys2Proof.Machine.execIorUnmapped p s
  | .iop p => Sys2Proof.Machine.execIop p s
  | .load => Sys2Proof.Machine.execLoad s
  | .unload => Sys2Proof.Machine.execUnload s
  | .pwrup => Sys2Proof.Machine.execPwrup s
  | .pwrdn => Sys2Proof.Machine.execPwrdn s
  | .rst => Sys2Proof.Machine.execRst s
  | .idle => Sys2Proof.Machine.execIdle s

end Sys2Proof.Machine
end

