-- ==== Sys2Proof/Machine/Step.lean ====
section
/-! DEFINITION. One step: the oldest transaction the host has delivered (60_exceptions.md R105, R109). -/

namespace Sys2Proof.Machine

/-- R105's order: first whether the word is reserved, then the phase (in each meaning), then the decode. -/
def step (s : State) : Host.Outcome State Fault Refusal :=
  match s.input with
  | [] => await s
  | r :: rest =>
    match decode r.word with
    | .error _ => .refused .reservedEncoding
    | .ok i => exec i (accept r rest s)

/-- `s` with the word's transaction delivered ahead of those pending, its version check passing, and the block in the
phase in which the host may deliver it (R20, R94): attached by a LOAD for every transaction but LOAD, detached for LOAD
itself (log 17). -/
def State.withFetchWord (s : State) (nbits w : Nat) : State :=
  deliverNext (BitVec.ofNat 32 (w % 2 ^ nbits)) s

end Sys2Proof.Machine
end

