-- ==== Sys2Proof/Machine/Assembler.lean ====
section
/-! DEFINITION. The assembler lines of 30_encoding.md R57 and the pseudo-instructions of R58, as the words they stand
for. -/

namespace Sys2Proof.Machine

/-- A transaction line (R57): I/O lines take an I/O address, whatever its port. -/
inductive AsmLine where
  | mrd (a : CpuAddr)
  | mwr (a : CpuAddr) (d : Byte)
  | mpk (a : CpuAddr)
  | ior (p : IoAddr)
  | iow (p : IoAddr) (d : Byte)
  | iop (p : IoAddr)
  | load
  | unload
  | pwrup
  | pwrdn
  | rst
  | idle
  deriving DecidableEq, Repr

/-- The word of a line, ignored bits zero (R47 to R49, R57). -/
def asmWord : AsmLine → TWord
  | .mrd a => assemble 0b000#3 a 0#8
  | .mwr a d => assemble 0b001#3 a d
  | .mpk a => assemble 0b010#3 a 0#8
  | .ior p => assemble 0b011#3 p 0#8
  | .iow p d => assemble 0b100#3 p d
  | .iop p => assemble 0b101#3 p 0#8
  | .load => assemble 0b110#3 (eventAddr 0b000#3) 0#8
  | .unload => assemble 0b110#3 (eventAddr 0b001#3) 0#8
  | .pwrup => assemble 0b110#3 (eventAddr 0b010#3) 0#8
  | .pwrdn => assemble 0b110#3 (eventAddr 0b011#3) 0#8
  | .rst => assemble 0b110#3 (eventAddr 0b100#3) 0#8
  | .idle => assemble 0b110#3 (eventAddr 0b101#3) 0#8

/-- `0xFB - p`, the H port of page `p`, as an I/O address (R58). -/
def highPort (p : Page) : IoAddr := 0x00FB#16 - BitVec.ofNat 16 p.val

/-- `0xFF - p`, the L port of page `p` (R58). -/
def lowPort (p : Page) : IoAddr := 0x00FF#16 - BitVec.ofNat 16 p.val

/-- SETMAP p, v: high half first, then low half (R58). -/
def setmap (p : Page) (v : MapReg) : List AsmLine :=
  [.iow (highPort p) (halfOf .high v), .iow (lowPort p) (halfOf .low v)]

/-- GETMAP p: the value is `h ++ l` of the two bytes returned (R58). -/
def getmap (p : Page) : List AsmLine := [.ior (highPort p), .ior (lowPort p)]

/-- Lines as requests, the version check passing (95_test_vectors.md section 8). -/
def requestsOf (ls : List AsmLine) : List Request := ls.map fun l => ⟨asmWord l, true⟩

end Sys2Proof.Machine
end

