-- ==== Sys2Proof/Machine/Interface.lean ====
section
/-! DEFINITION. The block at the level of its signals (30_encoding.md R46; decision D2): the address translator, the
mapping-register file, the port decoder and the segment-store port, with the transaction word driving them. The machine
of Step.lean does not use this file: it is the second description the spec gives of the same block, and the statements
say that the two agree. -/

namespace Sys2Proof.Machine

/-! ### Address translator: `a`, `map0`..`map3` in, `off` out -/

/-- The 4-to-1 multiplexer of 16-bit inputs, selected by `a[15:14]` (R62). -/
def muxOut (sel : BitVec 2) (map0 map1 map2 map3 : MapReg) : MapReg :=
  if sel = 0b00#2 then map0 else if sel = 0b01#2 then map1 else if sel = 0b10#2 then map2 else map3

/-- `off`: the picked register's bits [9:0] beside `a[13:0]` (R46, R63). -/
def translatorOut (a : CpuAddr) (map0 map1 map2 map3 : MapReg) : Offset :=
  (muxOut (a.extractLsb' 14 2) map0 map1 map2 map3).extractLsb' 0 10 ++ a.extractLsb' 0 14

/-! ### Port decoder: `port` in, `hit`, `page` and `half` out -/

/-- The decoder's outputs; `half` is 1 for H (R46, R53). -/
structure PortDecoderOut where
  hit : Bool
  page : BitVec 2
  half : Bool
  deriving DecidableEq, Repr

/-- R53: `hit = (port[7:3] == 0b11111)`, `half = ~port[2]`, `page = ~port[1:0]`. -/
def portDecoderOut (port : Byte) : PortDecoderOut where
  hit := port.extractLsb' 3 5 == 0b11111#5
  page := ~~~(port.extractLsb' 0 2)
  half := !port.getLsbD 2

/-! ### Mapping-register file -/

/-- The register file's inputs (R46). -/
structure RegFileIn where
  we : Bool
  wpage : BitVec 2
  whalf : Bool
  wdata : Byte
  rpage : BitVec 2
  rhalf : Bool
  init : Bool
  rst : Bool
  deriving DecidableEq, Repr

/-- `whalf` and `rhalf`: 0 is L, 1 is H (R46). -/
def halfOfBit (b : Bool) : Half := if b then .high else .low

/-- The registers after the transaction: `init` clears them, `rst` clears them only if `RESET_CLEARS_MAP`, `we` writes
one half (R46). -/
def regFileNext (clears : Bool) (m : MapFile) (x : RegFileIn) : MapFile :=
  if x.init || (x.rst && clears) then MapFile.zero
  else if x.we then m.set x.wpage.toFin (withHalf (halfOfBit x.whalf) x.wdata (m.get x.wpage.toFin))
  else m

/-- `rdata`: `MAP[rpage].L` or `MAP[rpage].H` (R46). -/
def regFileRdata (m : MapFile) (x : RegFileIn) : Byte := halfOf (halfOfBit x.rhalf) (m.get x.rpage.toFin)

/-- How a transaction word drives the register file: `we` for an IOW of a recognised port, `init` for a LOAD whose
version check passes, `rst` for RST and PWRUP (R46, R48, R49). -/
def regFileIn (t : TWord) (versionOk : Bool) : RegFileIn :=
  let dec := portDecoderOut (portOf (addrOf t))
  { we := kindOf t == 0b100#3 && dec.hit
    wpage := dec.page
    whalf := dec.half
    wdata := dataOf t
    rpage := dec.page
    rhalf := dec.half
    init := kindOf t == 0b110#3 && eventOf t == 0b000#3 && versionOk
    rst := kindOf t == 0b110#3 && (eventOf t == 0b100#3 || eventOf t == 0b010#3) }

/-! ### Segment-store port -/

/-- What the block drives to the store: `st_off`, `st_we`, `st_wdata` (R46). -/
structure StorePortOut where
  stOff : Offset
  stWe : Bool
  stWdata : Byte
  deriving DecidableEq, Repr

/-- `st_off` is the translator's `off`; `st_we` is set for MWR only (R46). -/
def storePortOut (t : TWord) (m : MapFile) : StorePortOut where
  stOff := translatorOut (addrOf t) (m.get 0) (m.get 1) (m.get 2) (m.get 3)
  stWe := kindOf t == 0b001#3
  stWdata := dataOf t

/-! ### Host interface -/

/-- The result byte of MRD, MPK, IOR and IOP; the other transactions have none (R46). -/
def resultByte (t : TWord) (rdata stRdata : Byte) : Option Byte :=
  if kindOf t = 0b000#3 ∨ kindOf t = 0b010#3 then some stRdata
  else if kindOf t = 0b011#3 ∨ kindOf t = 0b101#3 then
    some (if (portDecoderOut (portOf (addrOf t))).hit then rdata else unmappedReadValue)
  else none

end Sys2Proof.Machine
end

