-- ==== Sys2Proof/Safety.lean ====
section
/-! DEFINITION. What counts as a safe run, in the terms the statements use: the invariant of the state, the host's duties
(60_exceptions.md R115), runs of several transactions, and the spec's own summaries of what each transaction writes,
stores and returns (R19, R37, R40, R115), written from the rules' tables and not from `exec`. -/

namespace Sys2Proof.Machine

/-! ### The invariant -/

/-- The store's canonical form (R21), and: an ACTIVE block holds the draw of some LOAD (R20, R21). -/
abbrev Inv (s : State) : Prop := s.store.wf ∧ (s.phase = .active → 0 < s.draw)

/-! ### Reserved words and host duties -/

/-- The reserved words of R55. -/
abbrev reservedWord (t : TWord) : Prop :=
  rsvOf t ≠ 0#5 ∨ kindOf t = 0b111#3 ∨ (kindOf t = 0b110#3 ∧ (eventOf t = 0b110#3 ∨ eventOf t = 0b111#3))

/-- The phase in which the host may deliver a transaction: UNLOADED for LOAD, ACTIVE for every other (R20, R94, R115). -/
def phaseFor (i : Instr) : Phase := if i = .load then .unloaded else .active

/-- The host keeps its duty for the next step: the oldest word names a transaction that may be delivered in this phase
(R103, R115), or nothing is pending (DESIGN CHOICE, log 1). -/
def hostKeepsDuty (s : State) : Prop :=
  ∀ r rest, s.input = r :: rest → ∃ i, decode r.word = .ok i ∧ s.phase = phaseFor i

/-! ### What each transaction writes, stores and returns, by the rules' own tables -/

/-- The half an IOW to a recognised port writes, and the byte (R69 to R76); nothing else writes one (R19). -/
def halfWritten : Instr → Option (Page × Half × Byte)
  | .iowF8 _ d => some (3, .high, d)
  | .iowF9 _ d => some (2, .high, d)
  | .iowFA _ d => some (1, .high, d)
  | .iowFB _ d => some (0, .high, d)
  | .iowFC _ d => some (3, .low, d)
  | .iowFD _ d => some (2, .low, d)
  | .iowFE _ d => some (1, .low, d)
  | .iowFF _ d => some (0, .low, d)
  | .mrd _ | .mwr _ _ | .mpk _ | .iowUnmapped _ _ => none
  | .iorF8 _ | .iorF9 _ | .iorFA _ | .iorFB _ | .iorFC _ | .iorFD _ | .iorFE _ | .iorFF _ | .iorUnmapped _ => none
  | .iop _ | .load | .unload | .pwrup | .pwrdn | .rst | .idle => none

/-- The store offset an MWR writes, and the byte (R90); nothing else stores (R37). -/
def byteStored (m : MapFile) : Instr → Option (Offset × Byte)
  | .mwr a d => some (translateAddr m a, d)
  | .iowF8 _ _ | .iowF9 _ _ | .iowFA _ _ | .iowFB _ _ | .iowFC _ _ | .iowFD _ _ | .iowFE _ _ | .iowFF _ _ => none
  | .mrd _ | .mpk _ | .iowUnmapped _ _ => none
  | .iorF8 _ | .iorF9 _ | .iorFA _ | .iorFB _ | .iorFC _ | .iorFD _ | .iorFE _ | .iorFF _ | .iorUnmapped _ => none
  | .iop _ | .load | .unload | .pwrup | .pwrdn | .rst | .idle => none

/-- What a transaction returns to the host (R115). -/
inductive ReplyKind where
  | nothing
  | byte
  | status
  deriving DecidableEq, Repr

/-- The "the block returns" column of R115. -/
def replyKind : Instr → ReplyKind
  | .mrd _ | .mpk _ | .iop _ => .byte
  | .iorF8 _ | .iorF9 _ | .iorFA _ | .iorFB _ | .iorFC _ | .iorFD _ | .iorFE _ | .iorFF _ | .iorUnmapped _ => .byte
  | .mwr _ _ | .iowUnmapped _ _ => .nothing
  | .iowF8 _ _ | .iowF9 _ _ | .iowFA _ _ | .iowFB _ _ | .iowFC _ _ | .iowFD _ _ | .iowFE _ _ | .iowFF _ _ => .nothing
  | .load | .unload => .status
  | .pwrup | .pwrdn | .rst | .idle => .nothing

/-! ### Runs of several transactions -/

/-- Transactions one after another, stopping at the first that is refused (R40). -/
def execAll : List Instr → State → Host.Outcome State Fault Refusal
  | [], s => .next s
  | i :: is, s =>
    match exec i s with
    | .next t => execAll is t
    | .fault f => .fault f
    | .refused r => .refused r

/-- The byte of the most recent IOW to a half, if there was one (R40). -/
def mostRecentHalf (p : Page) (h : Half) : List Instr → Option Byte
  | [] => none
  | i :: is =>
    match mostRecentHalf p h is with
    | some b => some b
    | none =>
      match halfWritten i with
      | some (q, g, d) => if q = p ∧ g = h then some d else none
      | none => none

/-- The registers after a transaction that is no lifecycle event, by R69 to R77. -/
def mapAfter (m : MapFile) (i : Instr) : MapFile :=
  match halfWritten i with
  | some (p, h, d) => m.set p (withHalf h d (m.get p))
  | none => m

/-- The byte of the most recent MWR to any CPU address that translated to `o` at the time, if there was one (R40); `m` is
what the registers hold first. -/
def mostRecentByte (o : Offset) : MapFile → List Instr → Option Byte
  | _, [] => none
  | m, i :: is =>
    match mostRecentByte o (mapAfter m i) is with
    | some b => some b
    | none =>
      match byteStored m i with
      | some (o', d) => if o' = o then some d else none
      | none => none

end Sys2Proof.Machine
end

