-- ==== Sys2Proof/Certificates/Slice0/Obligations.lean ====
section
/-! DEFINITION. The statements about the model, from the numbered rules of spec/. -/

open Sys2Proof Sys2Proof.Machine

/-! ### The step and the encoding -/

/-- When the oldest pending word decodes to `i` (R59), the step is `exec i` at the state with that word taken. The model's
choice: the step takes the word from a queue (log 1) and presents each request's version-check outcome, also for a
transaction other than LOAD (log 9); R101 and R115 only make that outcome an input that the host gives with LOAD. -/
def Obligations.StepRunsDecodedTransaction : Prop :=
  ∀ (s : State) (r : Request) (rest : List Request) (i : Instr),
    s.input = r :: rest → decode r.word = .ok i →
      step s = exec i { s with input := rest, versionOk := r.versionOk }

/-- The model's choice (log 1), from R22 and R109: with nothing pending a step changes nothing. -/
def Obligations.StepWithNothingPendingWaits : Prop :=
  ∀ s : State, s.input = [] → step s = .next s

/-- R55: a reserved word is refused as such, in either phase (R105). -/
def Obligations.ReservedWordsAreRefused : Prop :=
  (∀ t : TWord, reservedWord t → ∃ e, decode t = .error e) ∧
    ∀ (s : State) (r : Request) (rest : List Request),
      s.input = r :: rest → reservedWord r.word → step s = .refused .reservedEncoding

/-- R59, R56: a reserved word is rejected; every other word decodes to a well-formed transaction; its row is the first of
the table that the word matches; and if a per-port row matches at all, that row is the decode. -/
def Obligations.DecodeFollowsOpcodeTable : Prop :=
  ∀ t : TWord, (reservedWord t → ∃ e, decode t = .error e) ∧ (¬ reservedWord t →
    ∃ i, decode t = .ok i ∧ WellFormed i = true ∧ opcodeRows.find? (fun row => row.hits t) = some (rowOf i) ∧
      ∀ row ∈ opcodeRows, row.mask = 0xFF00FF00#32 → row.hits t = true → row = rowOf i)

/-- Decode and encode agree: every well-formed transaction is read back whole from its word. -/
def Obligations.DecodeInvertsEncode : Prop :=
  ∀ i : Instr, WellFormed i = true → decode (encode i) = .ok i

/-- The other direction: the word of what a word decodes to is that word with its row's ignored bits cleared. That these
bits are ignored is R47, R49 and R52; that the encoder writes zeros in them is the model's choice (log 16). -/
def Obligations.EncodeInvertsDecode : Prop :=
  ∀ (t : TWord) (i : Instr), decode t = .ok i → WellFormed i = true ∧ encode i = t &&& caredBits i

/-- R49, R52: bits that a row ignores do not change the decode. -/
def Obligations.IgnoredBitsDoNotChangeDecode : Prop :=
  ∀ (t u : TWord) (i : Instr), decode t = .ok i → u &&& caredBits i = t &&& caredBits i → decode u = .ok i

/-- R51: two I/O words that differ only in `addr[15:8]` do the same. -/
def Obligations.IoAddressHighByteIsIgnored : Prop :=
  ∀ (k : BitVec 3) (hi hi' port d : Byte) (v : Bool) (rest : List Request) (s : State),
    k = 0b011#3 ∨ k = 0b100#3 ∨ k = 0b101#3 →
      step { s with input := ⟨assemble k (ioAddr hi port) d, v⟩ :: rest } =
        step { s with input := ⟨assemble k (ioAddr hi' port) d, v⟩ :: rest }

/-- Words written out in 95_test_vectors.md section 7 (V50 to V65) decode as it says. -/
def Obligations.TestVectorWordsDecode : Prop :=
  decode 0x00000000#32 = .ok (.mrd 0x0000) ∧ decode 0x01C00042#32 = .ok (.mwr 0xC000 0x42) ∧
  decode 0x02FFFF00#32 = .ok (.mpk 0xFFFF) ∧ decode 0x0312FBEE#32 = .ok (.iorFB 0x12) ∧
  decode 0x0300F700#32 = .ok (.iorUnmapped 0x00F7) ∧ decode 0x0400F801#32 = .ok (.iowF8 0x00 0x01) ∧
  decode 0x04F80001#32 = .ok (.iowUnmapped 0xF800 0x01) ∧ decode 0x0500FC00#32 = .ok (.iop 0x00FC) ∧
  decode 0x06000000#32 = .ok .load ∧ decode 0x06FFF8FF#32 = .ok .load ∧ decode 0x06000500#32 = .ok .idle ∧
  decode 0x06000600#32 = .error .reservedEvent ∧ decode 0x07000000#32 = .error .reservedKind ∧
  decode 0x08000000#32 = .error .reservedBits ∧ decode 0x80000000#32 = .error .reservedBits

/-! ### Invariant, phase, order -/

/-- Every step keeps the invariant: the store's canonical form (R21; log 6), and, the model's choice of log 5, that an
ACTIVE block holds the draw of a LOAD. -/
def Obligations.StepKeepsInvariant : Prop :=
  ∀ s t : State, Inv s → step s = .next t → Inv t

/-- The invariant holds before the first LOAD (logs 3, 5 and 6). -/
def Obligations.ResetMeetsInvariant : Prop := Inv State.reset

/-- R20: UNLOADED before the first LOAD; ACTIVE from a successful LOAD to the next UNLOAD; no other transaction changes
the phase; while UNLOADED every transaction but LOAD is refused. -/
def Obligations.PhaseFollowsLoadAndUnload : Prop :=
  State.reset.phase = .unloaded ∧
    (∀ (i : Instr) (s t : State), exec i s = .next t →
      (i = .load → t.phase = if s.versionOk then .active else .unloaded) ∧
        (i = .unload → t.phase = .unloaded) ∧ (i ≠ .load → i ≠ .unload → t.phase = s.phase)) ∧
    ∀ (i : Instr) (s : State), s.phase = .unloaded → i ≠ .load → exec i s = .refused .notActive

/-- R102: every transaction is total: in the phase in which the host may deliver it, it completes. -/
def Obligations.EveryTransactionCompletes : Prop :=
  ∀ (i : Instr) (s : State), s.phase = phaseFor i → ∃ t, exec i s = .next t

/-- R103, R115: with a word pending, a step is refused exactly when the host breaks its duty. The model's choice (log 1):
the step with nothing pending, which `hostKeepsDuty` counts as duty kept; R109 gives the block no step of its own. -/
def Obligations.StepCompletesExactlyWhenHostKeepsDuty : Prop :=
  ∀ s : State, (∃ t, step s = .next t) ↔ hostKeepsDuty s

/-- R22, R109: a step takes the oldest pending transaction and no other, and no transaction touches the host's inputs. -/
def Obligations.StepTakesOldestTransaction : Prop :=
  (∀ s t : State, step s = .next t → t.input = s.input.tail) ∧
    ∀ (i : Instr) (s t : State), exec i s = .next t → t.input = s.input ∧ t.versionOk = s.versionOk

/-- R36, R40, R106: a transaction delivered later has no part in the one that runs. -/
def Obligations.LaterDeliveryDoesNotMatter : Prop :=
  ∀ (s : State) (r : Request), s.input ≠ [] →
    (∀ t, step s = .next t → step (deliver r s) = .next (deliver r t)) ∧
      ∀ q, step s = .refused q → step (deliver r s) = .refused q

/-- R115, the "block returns" column: a byte for reads and peeks, a status for LOAD and UNLOAD, nothing otherwise. -/
def Obligations.TransactionsReturnWhatTheHostTableSays : Prop :=
  ∀ (i : Instr) (s t : State), exec i s = .next t →
    (replyKind i = .byte → ∃ b, t.output = .byte b :: s.output) ∧
      (replyKind i = .status → ∃ st, t.output = .status st :: s.output) ∧
      (replyKind i = .nothing → t.output = s.output)

/-! ### The translator -/

/-- R63: TRANSLATE as R61 computes it is the register's bits [9:0] beside `A[13:0]`, and as a number
`(MAP[A[15:14]] mod 1024) * 16384 + (A mod 16384)`. -/
def Obligations.TranslateClosedForm : Prop :=
  ∀ (m : MapFile) (a : CpuAddr) (p : Page), p.val = a.toNat / 16384 →
    translateAddr m a = (m.get p).extractLsb' 0 10 ++ a.extractLsb' 0 14 ∧
      (translateAddr m a).toNat = (m.get p).toNat % 1024 * 16384 + a.toNat % 16384

/-- R31, R62: the four pages by their CPU addresses. -/
def Obligations.PageSelectByAddressRange : Prop :=
  ∀ (m : MapFile) (a : CpuAddr),
    (a.toNat ≤ 0x3FFF → pageSelect m a = m.get 0) ∧
      (0x4000 ≤ a.toNat → a.toNat ≤ 0x7FFF → pageSelect m a = m.get 1) ∧
      (0x8000 ≤ a.toNat → a.toNat ≤ 0xBFFF → pageSelect m a = m.get 2) ∧
      (0xC000 ≤ a.toNat → pageSelect m a = m.get 3)

/-- R64: every offset is an index of the store. The mask of R61 alone brings the 30-bit raw value into the range, and what
it leaves is the offset: narrowing to 24 bits loses nothing. -/
def Obligations.TranslateStaysInStore : Prop :=
  ∀ (m : MapFile) (a : CpuAddr),
    let raw : BitVec 30 := (pageSelect m a).setWidth 30 <<< 14 ||| (a &&& 0x3FFF#16).setWidth 30
    (raw &&& 0xFFFFFF#30).toNat = (translateAddr m a).toNat ∧ (raw &&& 0xFFFFFF#30).toNat ≤ 2 ^ 24 - 1

/-- R65: linearity within a page, as a difference on 24 bits and as a sum that does not wrap. -/
def Obligations.TranslateLinearWithinPage : Prop :=
  ∀ (m : MapFile) (a : CpuAddr),
    translateAddr m a - translateAddr m (a &&& 0xC000#16) = (a &&& 0x3FFF#16).setWidth 24 ∧
      (translateAddr m a).toNat = (translateAddr m (a &&& 0xC000#16)).toNat + (a &&& 0x3FFF#16).toNat

/-- R18, R66: two values of a page's register give the same offsets exactly when they agree modulo 1024. -/
def Obligations.SegmentNumbersWrapModulo1024 : Prop :=
  ∀ (m : MapFile) (p : Page) (v w : MapReg),
    (∀ a : CpuAddr, pageOf a = p → translateAddr (m.set p v) a = translateAddr (m.set p w) a) ↔
      v.toNat % 1024 = w.toNat % 1024

/-- R44: two CPU addresses alias exactly when their segments agree modulo 1024 and their offsets in the page agree; a
write through one is seen at once through the other. -/
def Obligations.AliasesShareTheByte : Prop :=
  (∀ (m : MapFile) (a b : CpuAddr), translateAddr m a = translateAddr m b ↔
    (pageSelect m a).toNat % 1024 = (pageSelect m b).toNat % 1024 ∧ a.toNat % 16384 = b.toNat % 16384) ∧
    ∀ (s : State) (a b : CpuAddr) (d : Byte), s.phase = .active → translateAddr s.map a = translateAddr s.map b →
      ∃ t, exec (.mwr a d) s = .next t ∧ exec (.mrd b) t = .next { t with output := .byte d :: t.output }

/-- R35: across a page boundary the offsets are consecutive exactly when the next page's segment is the next one modulo
1024. -/
def Obligations.OffsetsAcrossPageBoundary : Prop :=
  ∀ (m : MapFile) (a : CpuAddr), a.toNat % 16384 = 16383 → a.toNat < 0xC000 →
    (translateAddr m (a + 1#16) = translateAddr m a + 1#24 ↔
      (pageSelect m (a + 1#16)).toNat % 1024 = ((pageSelect m a).toNat + 1) % 1024)

/-- R119: after LOAD all four pages map segment 0. -/
def Obligations.AllPagesAliasAfterLoad : Prop :=
  ∀ s : State, s.phase = .unloaded → s.versionOk = true →
    ∃ t, exec .load s = .next t ∧ ∀ a : CpuAddr,
      translateAddr t.map a = (a &&& 0x3FFF#16).setWidth 24 ∧
        translateAddr t.map (a + 0x4000#16) = (a &&& 0x3FFF#16).setWidth 24 ∧
        translateAddr t.map (a + 0x8000#16) = (a &&& 0x3FFF#16).setWidth 24 ∧
        translateAddr t.map (a + 0xC000#16) = (a &&& 0x3FFF#16).setWidth 24

/-! ### Memory access -/

/-- R89: MRD returns the byte at TRANSLATE(A), SEG_INIT's where none was written, and writes nothing. -/
def Obligations.MrdReturnsTranslatedByte : Prop :=
  ∀ (s : State) (a : CpuAddr), s.phase = .active →
    exec (.mrd a) s = .next { s with output := .byte (memRead (translateAddr s.map a) s) :: s.output } ∧
      (s.store.read? (translateAddr s.map a).toNat = none →
        memRead (translateAddr s.map a) s = Config.segInit s.draw (translateAddr s.map a))

/-- R90: MWR writes exactly the byte at TRANSLATE(A); nothing else changes and nothing is returned. -/
def Obligations.MwrStoresExactlyOneByte : Prop :=
  ∀ (s : State) (a : CpuAddr) (d : Byte), s.phase = .active →
    ∃ t, exec (.mwr a d) s = .next t ∧ t = { s with store := t.store } ∧ memRead (translateAddr s.map a) t = d ∧
      ∀ o : Offset, o ≠ translateAddr s.map a → memRead o t = memRead o s

/-- R91, R92: MPK completes as MRD does, with the same byte; the block's state after it is the state before. -/
def Obligations.PeekEqualsRead : Prop :=
  (∀ (s : State) (a : CpuAddr), exec (.mpk a) s = exec (.mrd a) s) ∧
    ∀ (s : State) (a : CpuAddr), s.phase = .active →
      exec (.mpk a) s = .next { s with output := .byte (memRead (translateAddr s.map a) s) :: s.output }

/-- R37: a read repeated with no write in between returns the same value, whatever else ran in between. -/
def Obligations.RepeatedReadsReturnTheSame : Prop :=
  ∀ (i : Instr) (is : List Instr) (s t u : State), replyKind i = .byte → exec i s = .next t →
    (∀ j ∈ is, halfWritten j = none ∧ byteStored s.map j = none ∧ j ≠ .load ∧ j ≠ .unload) → execAll is t = .next u →
      ∃ b, t.output = .byte b :: s.output ∧ exec i u = .next { u with output := .byte b :: u.output }

/-- R37, R93: MWR alone stores, and only at its translated offset; every other transaction but LOAD leaves every byte of
the store. For UNLOAD this is the model's choice (log 7), not the spec's: R95 says that the store is discarded. A LOAD
whose version check fails leaves every byte too: FailedLoadChangesNothing. -/
def Obligations.OnlyMwrWritesTheStore : Prop :=
  ∀ (i : Instr) (s t : State) (o : Offset), exec i s = .next t → i ≠ .load →
    memRead o t =
      match byteStored s.map i with
      | some (o', d) => if o = o' then d else memRead o s
      | none => memRead o s

/-- R61, R31: what a program writes through a page lands in the segment the page maps. -/
def Obligations.PageWritesStayInMappedSegment : Prop :=
  ∀ (s t : State) (a : CpuAddr) (d : Byte) (o : Offset), exec (.mwr a d) s = .next t →
    o.toNat / 16384 ≠ (pageSelect s.map a).toNat % 1024 → memRead o t = memRead o s

/-! ### The port decoder and the mapping registers -/

/-- R68, R53: the port table is the bit formula, for every I/O address; the decoder's signals say the same. -/
def Obligations.PortTableIsBitFormula : Prop :=
  ∀ p : IoAddr,
    (decodePort portMap p =
      if p.extractLsb' 3 5 = 0b11111#5 then
        some ((3#2 - p.extractLsb' 0 2).toFin, if p.getLsbD 2 then .low else .high)
      else none) ∧
    decodePort portMap p =
      (if (portDecoderOut (portOf p)).hit then
        some ((portDecoderOut (portOf p)).page.toFin, halfOfBit (portDecoderOut (portOf p)).half)
      else none)

/-- R69 to R72: the four H ports. `MAP[p]` becomes the byte beside its old low half; everything else is unchanged. -/
def Obligations.IowHighPortsWriteHighHalf : Prop :=
  ∀ (s : State) (hi d : Byte), s.phase = .active →
    exec (.iowF8 hi d) s = .next { s with map := s.map.set 3 (d ++ (s.map.get 3).extractLsb' 0 8) } ∧
    exec (.iowF9 hi d) s = .next { s with map := s.map.set 2 (d ++ (s.map.get 2).extractLsb' 0 8) } ∧
    exec (.iowFA hi d) s = .next { s with map := s.map.set 1 (d ++ (s.map.get 1).extractLsb' 0 8) } ∧
    exec (.iowFB hi d) s = .next { s with map := s.map.set 0 (d ++ (s.map.get 0).extractLsb' 0 8) }

/-- R73 to R76: the four L ports. `MAP[p]` becomes its old high half beside the byte; everything else is unchanged. -/
def Obligations.IowLowPortsWriteLowHalf : Prop :=
  ∀ (s : State) (hi d : Byte), s.phase = .active →
    exec (.iowFC hi d) s = .next { s with map := s.map.set 3 ((s.map.get 3).extractLsb' 8 8 ++ d) } ∧
    exec (.iowFD hi d) s = .next { s with map := s.map.set 2 ((s.map.get 2).extractLsb' 8 8 ++ d) } ∧
    exec (.iowFE hi d) s = .next { s with map := s.map.set 1 ((s.map.get 1).extractLsb' 8 8 ++ d) } ∧
    exec (.iowFF hi d) s = .next { s with map := s.map.set 0 ((s.map.get 0).extractLsb' 8 8 ++ d) }

/-- R77: an I/O write to an unrecognised port changes nothing: the transaction, and the step of any such word (which takes
the word and presents its outcome: logs 1 and 9). -/
def Obligations.IowUnmappedChangesNothing : Prop :=
  (∀ (s : State) (p : IoAddr) (d : Byte), s.phase = .active → ¬ recognised p →
    exec (.iowUnmapped p d) s = .next s) ∧
    ∀ (s : State) (p : IoAddr) (d : Byte) (v : Bool) (rest : List Request), s.phase = .active → ¬ recognised p →
      s.input = ⟨assemble 0b100#3 p d, v⟩ :: rest → step s = .next { s with input := rest, versionOk := v }

/-- R79 to R86: each recognised port returns its half; no state changes. -/
def Obligations.IorPortsReturnTheirHalf : Prop :=
  ∀ (s : State) (hi : Byte), s.phase = .active →
    exec (.iorF8 hi) s = .next { s with output := .byte ((s.map.get 3).extractLsb' 8 8) :: s.output } ∧
    exec (.iorF9 hi) s = .next { s with output := .byte ((s.map.get 2).extractLsb' 8 8) :: s.output } ∧
    exec (.iorFA hi) s = .next { s with output := .byte ((s.map.get 1).extractLsb' 8 8) :: s.output } ∧
    exec (.iorFB hi) s = .next { s with output := .byte ((s.map.get 0).extractLsb' 8 8) :: s.output } ∧
    exec (.iorFC hi) s = .next { s with output := .byte ((s.map.get 3).extractLsb' 0 8) :: s.output } ∧
    exec (.iorFD hi) s = .next { s with output := .byte ((s.map.get 2).extractLsb' 0 8) :: s.output } ∧
    exec (.iorFE hi) s = .next { s with output := .byte ((s.map.get 1).extractLsb' 0 8) :: s.output } ∧
    exec (.iorFF hi) s = .next { s with output := .byte ((s.map.get 0).extractLsb' 0 8) :: s.output }

/-- R87: an I/O read of an unrecognised port returns 0xFF: the transaction, and the step of any such word (which takes the
word and presents its outcome: logs 1 and 9). -/
def Obligations.IorUnmappedReturnsFF : Prop :=
  (∀ (s : State) (p : IoAddr), s.phase = .active → ¬ recognised p →
    exec (.iorUnmapped p) s = .next { s with output := .byte 0xFF#8 :: s.output }) ∧
    ∀ (s : State) (p : IoAddr) (d : Byte) (v : Bool) (rest : List Request), s.phase = .active → ¬ recognised p →
      s.input = ⟨assemble 0b011#3 p d, v⟩ :: rest →
        step s = .next { s with input := rest, versionOk := v, output := .byte 0xFF#8 :: s.output }

/-- R88: IOP returns the half of a recognised port and 0xFF otherwise, the value of IOR with the same `P`; no state
changes. -/
def Obligations.IopReturnsWhatIorReturns : Prop :=
  (∀ (s : State) (p : IoAddr), exec (.iop p) s = exec (decodeIor p) s) ∧
    ∀ (s : State) (p : IoAddr), s.phase = .active →
      exec (.iop p) s = .next { s with output := .byte (
        if recognised p then
          let v := s.map.get (3#2 - p.extractLsb' 0 2).toFin
          if p.getLsbD 2 then v.extractLsb' 0 8 else v.extractLsb' 8 8
        else 0xFF#8) :: s.output }

/-- R17's round trip: what is written to a recognised port is read back from it, for both halves of all four pages; and
under any port map, from any port the map recognises (decision D12). -/
def Obligations.PortRoundTrip : Prop :=
  (∀ (s : State) (p : IoAddr) (d : Byte), s.phase = .active → recognised p →
    ∃ t, exec (decodeIow p d) s = .next t ∧ exec (decodeIor p) t = .next { t with output := .byte d :: t.output }) ∧
    ∀ (pm : PortMap) (s : State) (p : IoAddr) (d : Byte), decodePort pm p ≠ none → ioRead pm p (ioWrite pm p d s) = d

/-- R19, for this hardware (`RESET_CLEARS_MAP = false`): only an IOW to a recognised port writes a mapping register, and
it writes exactly one half of one register; LOAD alone initialises them. -/
def Obligations.OnlyIowWritesMappingRegisters : Prop :=
  ∀ (i : Instr) (s t : State), exec i s = .next t →
    (i ≠ .load → halfWritten i = none → t.map = s.map) ∧
      (∀ p h d, halfWritten i = some (p, h, d) → halfOf h (t.map.get p) = d ∧
        ∀ q g, (q, g) ≠ (p, h) → halfOf g (t.map.get q) = halfOf g (s.map.get q)) ∧
      (i = .load → s.versionOk = true → ∀ p, t.map.get p = 0x0000#16)

/-- R58: SETMAP's two writes, with the intermediate value between them; GETMAP's two reads give the register. That a step
takes a word from the queue and presents its outcome is the model's (logs 1 and 9). -/
def Obligations.SetmapAndGetmapExpand : Prop :=
  (∀ (s : State) (p : Page) (v : MapReg) (rest : List Request), s.phase = .active →
    s.input = requestsOf (setmap p v) ++ rest →
      ∃ t u, step s = .next t ∧ step t = .next u ∧
        t.map.get p = v.extractLsb' 8 8 ++ (s.map.get p).extractLsb' 0 8 ∧
        u = { s with map := s.map.set p v, input := rest, versionOk := true }) ∧
    ∀ (s : State) (p : Page) (rest : List Request), s.phase = .active → s.input = requestsOf (getmap p) ++ rest →
      ∃ t u, step s = .next t ∧ step t = .next u ∧ ∃ h l : Byte, h ++ l = s.map.get p ∧
        u = { s with input := rest, versionOk := true, output := .byte l :: .byte h :: s.output }

/-- R123, R121: between the two writes of a mapping change the page uses the mixed value, in either order; after both it
uses the new one. -/
def Obligations.MixedValueBetweenTwoWrites : Prop :=
  ∀ (s : State) (p : Page) (v : MapReg) (a : CpuAddr), s.phase = .active → pageOf a = p →
    (∃ t u, exec (decodeIow (highPort p) (halfOf .high v)) s = .next t ∧
      exec (decodeIow (lowPort p) (halfOf .low v)) t = .next u ∧
      translateAddr t.map a = shiftAndMask (v.extractLsb' 8 8 ++ (s.map.get p).extractLsb' 0 8) a ∧
      translateAddr u.map a = shiftAndMask v a) ∧
    ∃ t u, exec (decodeIow (lowPort p) (halfOf .low v)) s = .next t ∧
      exec (decodeIow (highPort p) (halfOf .high v)) t = .next u ∧
      translateAddr t.map a = shiftAndMask ((s.map.get p).extractLsb' 8 8 ++ v.extractLsb' 0 8) a ∧
      translateAddr u.map a = shiftAndMask v a

/-! ### Lifecycle -/

/-- R116, R94: the state after a successful LOAD. -/
def Obligations.LoadInitialisesTheBlock : Prop :=
  ∀ s : State, s.phase = .unloaded → s.versionOk = true →
    ∃ t, exec .load s = .next t ∧ t.phase = .active ∧ (∀ p, t.map.get p = 0x0000#16) ∧
      (∀ o : Offset, memRead o t = Config.segInit t.draw o) ∧ t.output = .status .ok :: s.output ∧
      t.input = s.input ∧ t.versionOk = s.versionOk

/-- The model's choice (log 5) for decision D14: each successful LOAD takes the next draw of SEG_INIT, and nothing else
changes the draw. -/
def Obligations.EachLoadTakesAFreshDraw : Prop :=
  ∀ (i : Instr) (s t : State), exec i s = .next t →
    t.draw = if i = .load ∧ s.versionOk = true then s.draw + 1 else s.draw

/-- R101: a LOAD whose version check fails returns FAIL (-1; OK is 0) and changes no state. -/
def Obligations.FailedLoadChangesNothing : Prop :=
  statusCode .ok = 0 ∧ statusCode .fail = -1 ∧
    ∀ s : State, s.phase = .unloaded → s.versionOk = false →
      exec .load s = .next { s with output := .status .fail :: s.output }

/-- R94: LOAD is refused while ACTIVE, whatever the version check says. -/
def Obligations.LoadWhileActiveIsRefused : Prop :=
  ∀ s : State, s.phase = .active → exec .load s = .refused .alreadyActive

/-- R95: UNLOAD returns OK and leaves the block UNLOADED, where only LOAD has a meaning; while UNLOADED it is refused. -/
def Obligations.UnloadDetachesTheBlock : Prop :=
  (∀ s : State, s.phase = .active →
    ∃ t, exec .unload s = .next t ∧ t.phase = .unloaded ∧ t.output = .status .ok :: s.output ∧
      t.input = s.input ∧ t.versionOk = s.versionOk ∧ ∀ i, i ≠ .load → exec i t = .refused .notActive) ∧
    ∀ s : State, s.phase = .unloaded → exec .unload s = .refused .notActive

/-- R95, R94: after UNLOAD the old mapping registers cannot be observed: two blocks that differ only in them answer the
same to every later sequence of transactions. -/
def Obligations.UnloadHidesMappingRegisters : Prop :=
  ∀ (is : List Instr) (s : State) (m : MapFile),
    (∀ t, execAll (.unload :: is) s = .next t →
      ∃ t', execAll (.unload :: is) { s with map := m } = .next t' ∧ t'.output = t.output ∧ t'.phase = t.phase) ∧
      ∀ q, execAll (.unload :: is) s = .refused q → execAll (.unload :: is) { s with map := m } = .refused q

/-- R117, R96 to R99: PWRUP, PWRDN, RST and IDLE leave the state as it is on this hardware; with `RESET_CLEARS_MAP` true,
what RST and PWRUP do would clear the registers and nothing else. -/
def Obligations.PowerAndResetEventsKeepState : Prop :=
  (∀ s : State, s.phase = .active →
    exec .pwrup s = .next s ∧ exec .pwrdn s = .next s ∧ exec .rst s = .next s ∧ exec .idle s = .next s) ∧
    (∀ s : State, s.phase = .active →
      exec .pwrup s = .next (powerOrReset resetClearsMap s) ∧ exec .rst s = .next (powerOrReset resetClearsMap s)) ∧
    ∀ s : State, (∀ p, (powerOrReset true s).map.get p = 0x0000#16) ∧
      powerOrReset true s = { s with map := (powerOrReset true s).map }

/-! ### Runs and the signal-level block -/

/-- R40: in any run that starts with a successful LOAD and has no UNLOAD, MRD and MPK return the byte of the most recent
MWR that translated to the offset, or SEG_INIT's if there was none, and each register half holds the byte of the most
recent IOW to it, or 0x00 if there was none. -/
def Obligations.ReadsSeeTheMostRecentWrite : Prop :=
  ∀ (is : List Instr) (s₀ s t : State), exec .load s₀ = .next s → s₀.versionOk = true → Instr.unload ∉ is →
    execAll is s = .next t →
      (∀ a : CpuAddr,
        let b := (mostRecentByte (translateAddr t.map a) MapFile.zero is).getD (Config.segInit s.draw (translateAddr t.map a))
        exec (.mrd a) t = .next { t with output := .byte b :: t.output } ∧
          exec (.mpk a) t = .next { t with output := .byte b :: t.output }) ∧
      ∀ (p : Page) (h : Half), halfOf h (t.map.get p) = (mostRecentHalf p h is).getD 0x00#8

/-- R46, R61, R62: the translator's signals give TRANSLATE. -/
def Obligations.TranslatorSignalsGiveTranslate : Prop :=
  ∀ (m : MapFile) (a : CpuAddr), translatorOut a (m.get 0) (m.get 1) (m.get 2) (m.get 3) = translateAddr m a

/-- R46: the block's signals, driven by the transaction word, compute what the machine's step does: the registers, every
byte of the store (but for a LOAD's initialisation), and the result byte. DEDUCED (log 27): `init` stays low for a LOAD
whose version check fails, where R46 says only LOAD. The model's choice (log 7): an UNLOAD keeps the registers and the
store, which R95 discards. The queue and each request's outcome are the model's too (logs 1 and 9). -/
def Obligations.StepRefinesBlockSignals : Prop :=
  ∀ (s t : State) (r : Request) (rest : List Request), s.input = r :: rest → step s = .next t →
    t.map = regFileNext resetClearsMap s.map (regFileIn r.word r.versionOk) ∧
      ((regFileIn r.word r.versionOk).init = false → ∀ o : Offset,
        memRead o t = if (storePortOut r.word s.map).stWe = true ∧ o = (storePortOut r.word s.map).stOff then
          (storePortOut r.word s.map).stWdata else memRead o s) ∧
      (∀ b, resultByte r.word (regFileRdata s.map (regFileIn r.word r.versionOk))
          (memRead (storePortOut r.word s.map).stOff s) = some b → t.output = .byte b :: s.output) ∧
      (resultByte r.word (regFileRdata s.map (regFileIn r.word r.versionOk))
          (memRead (storePortOut r.word s.map).stOff s) = none → kindOf r.word ≠ 0b110#3 → t.output = s.output)
end

