-- ==== Sys2Proof/Laws/Decode.lean ====
section
/-! SUPPORT. The fields of an assembled word and of an assembled I/O address (R47, R49, R51). -/

namespace Sys2Proof

/-- The bits of an assembled word, field by field. -/
theorem assemble_getLsbD (k : BitVec 3) (a : BitVec 16) (d : Byte) (i : Nat) :
    (assemble k a d).getLsbD i =
      if i < 8 then d.getLsbD i
      else if i < 24 then a.getLsbD (i - 8)
      else k.getLsbD (i - 24) := by
  have h₁ := BitVec.getLsbD_append (x := 0#5 ++ k ++ a) (y := d) (i := i)
  have h₂ := BitVec.getLsbD_append (x := 0#5 ++ k) (y := a) (i := i - 8)
  have h₃ := BitVec.getLsbD_append (x := 0#5) (y := k) (i := i - 8 - 16)
  rw [h₂, h₃] at h₁
  refine h₁.trans ?_
  by_cases c₁ : i < 8
  · simp [c₁]
  by_cases c₂ : i < 24
  · simp [c₁, c₂, show i - 8 < 16 by omega]
  · simp only [c₁, c₂, show ¬ i - 8 < 16 by omega, if_false]
    by_cases c₃ : i - 8 - 16 < 3
    · simp [c₃, show i - 24 = i - 8 - 16 by omega]
    · rw [BitVec.getLsbD_of_ge k (i - 24) (by omega)]; simp [c₃]

@[simp] theorem rsvOf_assemble (k : BitVec 3) (a : BitVec 16) (d : Byte) : rsvOf (assemble k a d) = 0#5 := by
  apply BitVec.eq_of_getLsbD_eq; intro i hi
  simp only [rsvOf, BitVec.getLsbD_extractLsb', assemble_getLsbD, show ¬ 27 + i < 8 by omega,
    show ¬ 27 + i < 24 by omega, if_false]
  rw [BitVec.getLsbD_of_ge k _ (by omega)]; simp

@[simp] theorem kindOf_assemble (k : BitVec 3) (a : BitVec 16) (d : Byte) : kindOf (assemble k a d) = k := by
  apply BitVec.eq_of_getLsbD_eq; intro i hi
  simp [kindOf, assemble_getLsbD, show ¬ 24 + i < 8 by omega, hi]

@[simp] theorem addrOf_assemble (k : BitVec 3) (a : BitVec 16) (d : Byte) : addrOf (assemble k a d) = a := by
  apply BitVec.eq_of_getLsbD_eq; intro i hi
  simp [addrOf, assemble_getLsbD, show 8 + i < 24 by omega, hi]

@[simp] theorem dataOf_assemble (k : BitVec 3) (a : BitVec 16) (d : Byte) : dataOf (assemble k a d) = d := by
  apply BitVec.eq_of_getLsbD_eq; intro i hi
  simp [dataOf, assemble_getLsbD, hi]

theorem ioAddr_getLsbD (h l : Byte) (i : Nat) :
    (ioAddr h l).getLsbD i = if i < 8 then l.getLsbD i else h.getLsbD (i - 8) := by
  simpa [ioAddr] using BitVec.getLsbD_append (x := h) (y := l) (i := i)

@[simp] theorem portOf_ioAddr (h l : Byte) : portOf (ioAddr h l) = l := by
  apply BitVec.eq_of_getLsbD_eq; intro i hi
  rw [portOf, BitVec.getLsbD_setWidth]
  simp only [ioAddr_getLsbD, hi, decide_true, Bool.true_and, if_true]

@[simp] theorem portHighOf_ioAddr (h l : Byte) : portHighOf (ioAddr h l) = h := by
  apply BitVec.eq_of_getLsbD_eq; intro i hi
  simp [portHighOf, ioAddr_getLsbD, hi]

/-- An I/O address is its two bytes. -/
theorem ioAddr_portHighOf_portOf (p : IoAddr) : ioAddr (portHighOf p) (portOf p) = p := by
  apply BitVec.eq_of_getLsbD_eq; intro i hi
  rw [ioAddr_getLsbD]
  split
  · simp [portOf, *]
  · simp [portHighOf, show i - 8 < 8 by omega, show 8 + (i - 8) = i by omega]

/-- A word whose reserved bits are zero is its three other fields. -/
theorem assemble_fields {t : TWord} (h : rsvOf t = 0#5) : assemble (kindOf t) (addrOf t) (dataOf t) = t := by
  apply BitVec.eq_of_getLsbD_eq; intro i hi
  rw [assemble_getLsbD]
  by_cases c₁ : i < 8
  · simp [c₁, dataOf]
  by_cases c₂ : i < 24
  · simp [c₁, c₂, addrOf, show i - 8 < 16 by omega, show 8 + (i - 8) = i by omega]
  · by_cases c₃ : i < 27
    · simp [c₁, c₂, kindOf, show i - 24 < 3 by omega, show 24 + (i - 24) = i by omega]
    · have := congrArg (·.getLsbD (i - 27)) h
      simp [rsvOf, show i - 27 < 5 by omega, show 27 + (i - 27) = i by omega] at this
      simp [c₁, c₂, BitVec.getLsbD_of_ge (kindOf t) (i - 24) (by omega), this]

theorem eventAddr_getLsbD (e : BitVec 3) (i : Nat) : (eventAddr e).getLsbD i = if i < 3 then e.getLsbD i else false := by
  simpa [eventAddr] using BitVec.getLsbD_append (x := 0#13) (y := e) (i := i)

/-- An event code is the low three bits of the address field (R49). -/
theorem eventOf_assemble_bits (k : BitVec 3) (a : BitVec 16) (d : Byte) :
    eventOf (assemble k a d) = a.extractLsb' 0 3 := by
  apply BitVec.eq_of_getLsbD_eq; intro i hi
  rw [eventOf, BitVec.getLsbD_extractLsb', assemble_getLsbD]
  simp [show 8 + i < 24 by omega, hi]

@[simp] theorem eventOf_assemble (k e : BitVec 3) (d : Byte) : eventOf (assemble k (eventAddr e) d) = e := by
  rw [eventOf_assemble_bits]
  apply BitVec.eq_of_getLsbD_eq; intro i hi
  rw [BitVec.getLsbD_extractLsb', eventAddr_getLsbD]
  simp [hi]

/-- Two words agree under a mask when they agree at every bit of it. -/
theorem and_mask_eq_of_bits {t m p : TWord} (h : ∀ i < 32, (t.getLsbD i && m.getLsbD i) = p.getLsbD i) :
    t &&& m = p := by
  apply BitVec.eq_of_getLsbD_eq; intro i hi
  simpa using h i hi

/-- The port number decides the IOW row (R59). -/
theorem decodeIow_cases (p : IoAddr) (d : Byte) :
    (∃ i ∈ [Instr.iowF8 (portHighOf p) d, .iowF9 (portHighOf p) d, .iowFA (portHighOf p) d, .iowFB (portHighOf p) d,
        .iowFC (portHighOf p) d, .iowFD (portHighOf p) d, .iowFE (portHighOf p) d, .iowFF (portHighOf p) d],
        decodeIow p d = i) ∨ decodeIow p d = .iowUnmapped p d := by
  unfold decodeIow
  repeat' split
  all_goals simp

/-- The port number decides the IOR row (R59). -/
theorem decodeIor_cases (p : IoAddr) :
    (∃ i ∈ [Instr.iorF8 (portHighOf p), .iorF9 (portHighOf p), .iorFA (portHighOf p), .iorFB (portHighOf p),
        .iorFC (portHighOf p), .iorFD (portHighOf p), .iorFE (portHighOf p), .iorFF (portHighOf p)],
        decodeIor p = i) ∨ decodeIor p = .iorUnmapped p := by
  unfold decodeIor
  repeat' split
  all_goals simp

/-- A port that is not 0xF8 to 0xFF selects the unmapped row (R59, R77). -/
theorem decodeIow_of_not_recognised {p : IoAddr} (h : ¬ recognised p) (d : Byte) :
    decodeIow p d = .iowUnmapped p d := by
  have h' : ∀ q : Byte, 0xF8#8 ≤ q → portOf p ≠ q := fun q hq hp => h (by rw [portOf] at hp; rw [recognised, hp]; exact hq)
  simp [decodeIow, h' 0xF8#8 (by decide), h' 0xF9#8 (by decide), h' 0xFA#8 (by decide), h' 0xFB#8 (by decide),
    h' 0xFC#8 (by decide), h' 0xFD#8 (by decide), h' 0xFE#8 (by decide), h' 0xFF#8 (by decide)]

/-- A port that is not 0xF8 to 0xFF selects the unmapped row (R59, R87). -/
theorem decodeIor_of_not_recognised {p : IoAddr} (h : ¬ recognised p) : decodeIor p = .iorUnmapped p := by
  have h' : ∀ q : Byte, 0xF8#8 ≤ q → portOf p ≠ q := fun q hq hp => h (by rw [portOf] at hp; rw [recognised, hp]; exact hq)
  simp [decodeIor, h' 0xF8#8 (by decide), h' 0xF9#8 (by decide), h' 0xFA#8 (by decide), h' 0xFB#8 (by decide),
    h' 0xFC#8 (by decide), h' 0xFD#8 (by decide), h' 0xFE#8 (by decide), h' 0xFF#8 (by decide)]

/-- The word of what an I/O write word decodes to, and the bits it cares for. -/
theorem encode_decodeIow (p : IoAddr) (d : Byte) : encode (decodeIow p d) = assemble 0b100#3 p d := by
  have := ioAddr_portHighOf_portOf p
  unfold decodeIow
  repeat' split
  all_goals simp_all [encode]

theorem encode_decodeIor (p : IoAddr) : encode (decodeIor p) = assemble 0b011#3 p 0#8 := by
  have := ioAddr_portHighOf_portOf p
  unfold decodeIor
  repeat' split
  all_goals simp_all [encode]

end Sys2Proof
end

