-- ==== Sys2Proof/Laws/State.lean ====
section
/-! SUPPORT. One lemma per field per state update, so that no proof unfolds a record update. -/

namespace Sys2Proof.Machine

/-! ### `memWrite` -/

@[simp] theorem memWrite_phase (off : Offset) (b : Byte) (s : State) : (memWrite off b s).phase = s.phase := rfl
@[simp] theorem memWrite_map (off : Offset) (b : Byte) (s : State) : (memWrite off b s).map = s.map := rfl
@[simp] theorem memWrite_store (off : Offset) (b : Byte) (s : State) : (memWrite off b s).store = s.store.write off.toNat b := rfl
@[simp] theorem memWrite_draw (off : Offset) (b : Byte) (s : State) : (memWrite off b s).draw = s.draw := rfl
@[simp] theorem memWrite_versionOk (off : Offset) (b : Byte) (s : State) : (memWrite off b s).versionOk = s.versionOk := rfl
@[simp] theorem memWrite_input (off : Offset) (b : Byte) (s : State) : (memWrite off b s).input = s.input := rfl
@[simp] theorem memWrite_output (off : Offset) (b : Byte) (s : State) : (memWrite off b s).output = s.output := rfl

/-! ### `setMapHalf` -/

@[simp] theorem setMapHalf_phase (p : Page) (h : Half) (b : Byte) (s : State) : (setMapHalf p h b s).phase = s.phase := rfl
@[simp] theorem setMapHalf_map (p : Page) (h : Half) (b : Byte) (s : State) : (setMapHalf p h b s).map = s.map.set p (withHalf h b (s.map.get p)) := rfl
@[simp] theorem setMapHalf_store (p : Page) (h : Half) (b : Byte) (s : State) : (setMapHalf p h b s).store = s.store := rfl
@[simp] theorem setMapHalf_draw (p : Page) (h : Half) (b : Byte) (s : State) : (setMapHalf p h b s).draw = s.draw := rfl
@[simp] theorem setMapHalf_versionOk (p : Page) (h : Half) (b : Byte) (s : State) : (setMapHalf p h b s).versionOk = s.versionOk := rfl
@[simp] theorem setMapHalf_input (p : Page) (h : Half) (b : Byte) (s : State) : (setMapHalf p h b s).input = s.input := rfl
@[simp] theorem setMapHalf_output (p : Page) (h : Half) (b : Byte) (s : State) : (setMapHalf p h b s).output = s.output := rfl

/-! ### `clearMap` -/

@[simp] theorem clearMap_phase (s : State) : (clearMap s).phase = s.phase := rfl
@[simp] theorem clearMap_map (s : State) : (clearMap s).map = MapFile.zero := rfl
@[simp] theorem clearMap_store (s : State) : (clearMap s).store = s.store := rfl
@[simp] theorem clearMap_draw (s : State) : (clearMap s).draw = s.draw := rfl
@[simp] theorem clearMap_versionOk (s : State) : (clearMap s).versionOk = s.versionOk := rfl
@[simp] theorem clearMap_input (s : State) : (clearMap s).input = s.input := rfl
@[simp] theorem clearMap_output (s : State) : (clearMap s).output = s.output := rfl

/-! ### `initialise` -/

@[simp] theorem initialise_phase (s : State) : (initialise s).phase = .active := rfl
@[simp] theorem initialise_map (s : State) : (initialise s).map = MapFile.zero := rfl
@[simp] theorem initialise_store (s : State) : (initialise s).store = [] := rfl
@[simp] theorem initialise_draw (s : State) : (initialise s).draw = s.draw + 1 := rfl
@[simp] theorem initialise_versionOk (s : State) : (initialise s).versionOk = s.versionOk := rfl
@[simp] theorem initialise_input (s : State) : (initialise s).input = s.input := rfl
@[simp] theorem initialise_output (s : State) : (initialise s).output = s.output := rfl

/-! ### `detach` -/

@[simp] theorem detach_phase (s : State) : (detach s).phase = .unloaded := rfl
@[simp] theorem detach_map (s : State) : (detach s).map = s.map := rfl
@[simp] theorem detach_store (s : State) : (detach s).store = s.store := rfl
@[simp] theorem detach_draw (s : State) : (detach s).draw = s.draw := rfl
@[simp] theorem detach_versionOk (s : State) : (detach s).versionOk = s.versionOk := rfl
@[simp] theorem detach_input (s : State) : (detach s).input = s.input := rfl
@[simp] theorem detach_output (s : State) : (detach s).output = s.output := rfl

/-! ### `reply` -/

@[simp] theorem reply_phase (r : Reply) (s : State) : (reply r s).phase = s.phase := rfl
@[simp] theorem reply_map (r : Reply) (s : State) : (reply r s).map = s.map := rfl
@[simp] theorem reply_store (r : Reply) (s : State) : (reply r s).store = s.store := rfl
@[simp] theorem reply_draw (r : Reply) (s : State) : (reply r s).draw = s.draw := rfl
@[simp] theorem reply_versionOk (r : Reply) (s : State) : (reply r s).versionOk = s.versionOk := rfl
@[simp] theorem reply_input (r : Reply) (s : State) : (reply r s).input = s.input := rfl
@[simp] theorem reply_output (r : Reply) (s : State) : (reply r s).output = r :: s.output := rfl

/-! ### `accept` -/

@[simp] theorem accept_phase (r : Request) (rest : List Request) (s : State) : (accept r rest s).phase = s.phase := rfl
@[simp] theorem accept_map (r : Request) (rest : List Request) (s : State) : (accept r rest s).map = s.map := rfl
@[simp] theorem accept_store (r : Request) (rest : List Request) (s : State) : (accept r rest s).store = s.store := rfl
@[simp] theorem accept_draw (r : Request) (rest : List Request) (s : State) : (accept r rest s).draw = s.draw := rfl
@[simp] theorem accept_versionOk (r : Request) (rest : List Request) (s : State) : (accept r rest s).versionOk = r.versionOk := rfl
@[simp] theorem accept_input (r : Request) (rest : List Request) (s : State) : (accept r rest s).input = rest := rfl
@[simp] theorem accept_output (r : Request) (rest : List Request) (s : State) : (accept r rest s).output = s.output := rfl

/-! ### `deliver` -/

@[simp] theorem deliver_phase (r : Request) (s : State) : (deliver r s).phase = s.phase := rfl
@[simp] theorem deliver_map (r : Request) (s : State) : (deliver r s).map = s.map := rfl
@[simp] theorem deliver_store (r : Request) (s : State) : (deliver r s).store = s.store := rfl
@[simp] theorem deliver_draw (r : Request) (s : State) : (deliver r s).draw = s.draw := rfl
@[simp] theorem deliver_versionOk (r : Request) (s : State) : (deliver r s).versionOk = s.versionOk := rfl
@[simp] theorem deliver_input (r : Request) (s : State) : (deliver r s).input = s.input ++ [r] := rfl
@[simp] theorem deliver_output (r : Request) (s : State) : (deliver r s).output = s.output := rfl

end Sys2Proof.Machine
end

