-- ==== Sys2Proof/Laws/Ops.lean ====
section
/-! SUPPORT. What each shared operation of Machine/Ops.lean and Machine/Operands.lean can do, said once. -/

namespace Sys2Proof.Machine

/-! ### Cells -/

theorem Memory.read?_write (m : Memory) (o k : Nat) (b : Byte) :
    (m.write o b).read? k = if o = k then some b else m.read? k := by
  induction m with
  | nil => simp [Memory.write, Memory.read?]
  | cons c m ih =>
    obtain ⟨j, v⟩ := c
    simp only [Memory.write]
    split
    · simp [Memory.read?]
    · split
      · simp [Memory.read?]; split <;> simp_all
      · simp only [Memory.read?, ih]
        split <;> simp_all

/-- The keys of the list after a write: the key written and those listed before. -/
theorem Memory.mem_write {m : Memory} {o : Nat} {b : Byte} {c : Host.Cell} (h : c ∈ m.write o b) :
    c.1 = o ∨ c ∈ m := by
  induction m with
  | nil => simp_all [Memory.write]
  | cons d m ih =>
    obtain ⟨j, v⟩ := d
    simp only [Memory.write] at h
    split at h
    · rcases List.mem_cons.1 h with rfl | h <;> simp_all
    · split at h
      · rcases List.mem_cons.1 h with rfl | h <;> simp_all
      · rcases List.mem_cons.1 h with rfl | h
        · simp
        · rcases ih h with h | h <;> simp [h]

/-- A write keeps the canonical form. -/
theorem Memory.write_wf {m : Memory} {o : Nat} {b : Byte} (hm : m.wf) (ho : o < Config.storeSize) :
    (m.write o b).wf := by
  induction m with
  | nil => simp [Memory.write, Memory.wf, ho]
  | cons d m ih =>
    obtain ⟨j, v⟩ := d
    obtain ⟨hs, hb⟩ := hm
    obtain ⟨hj, hs⟩ := List.pairwise_cons.1 hs
    have ih := ih ⟨hs, fun c hc => hb c (List.mem_cons_of_mem _ hc)⟩
    have hjb : j < Config.storeSize := hb (j, v) List.mem_cons_self
    simp only [Memory.write]
    split
    · refine ⟨List.pairwise_cons.2 ⟨?_, List.pairwise_cons.2 ⟨hj, hs⟩⟩, ?_⟩
      · rintro c hc
        rcases List.mem_cons.1 hc with rfl | hc
        · assumption
        · have := hj c hc; simp at this ⊢; omega
      · rintro c hc
        rcases List.mem_cons.1 hc with rfl | hc
        · exact ho
        · exact hb c hc
    · split
      · subst_vars
        refine ⟨List.pairwise_cons.2 ⟨hj, hs⟩, ?_⟩
        rintro c hc
        rcases List.mem_cons.1 hc with rfl | hc
        · exact ho
        · exact hb c (List.mem_cons_of_mem _ hc)
      · refine ⟨List.pairwise_cons.2 ⟨?_, ih.1⟩, ?_⟩
        · rintro c hc
          rcases Memory.mem_write hc with hc | hc
          · simp only [hc]; omega
          · exact hj c hc
        · rintro c hc
          rcases List.mem_cons.1 hc with rfl | hc
          · exact hjb
          · exact ih.2 c hc

theorem Memory.nil_wf : Memory.wf [] := by simp [Memory.wf]

/-! ### MemRead and MemWrite -/

theorem memRead_memWrite (o k : Offset) (b : Byte) (s : State) :
    memRead k (memWrite o b s) = if k = o then b else memRead k s := by
  simp only [memRead, unwrittenByte, memWrite_store, memWrite_draw, Memory.read?_write]
  by_cases h : k = o
  · simp [h]
  · have : ¬ o.toNat = k.toNat := fun h' => h (BitVec.eq_of_toNat_eq h'.symm)
    simp [h, this]

theorem memWrite_wf {o : Offset} {b : Byte} {s : State} (h : s.store.wf) : (memWrite o b s).store.wf :=
  Memory.write_wf h o.isLt

@[simp] theorem memRead_setMapHalf (o : Offset) (p : Page) (h : Half) (b : Byte) (s : State) :
    memRead o (setMapHalf p h b s) = memRead o s := rfl

@[simp] theorem memRead_reply (o : Offset) (r : Reply) (s : State) : memRead o (reply r s) = memRead o s := rfl

@[simp] theorem memRead_detach (o : Offset) (s : State) : memRead o (detach s) = memRead o s := rfl

@[simp] theorem memRead_accept (o : Offset) (r : Request) (rest : List Request) (s : State) :
    memRead o (accept r rest s) = memRead o s := rfl

theorem memRead_initialise (o : Offset) (s : State) :
    memRead o (initialise s) = Config.segInit (s.draw + 1) o := rfl

/-! ### Register halves -/

/-- The bits of two bytes side by side. -/
theorem getLsbD_byte_append (x y : Byte) (i : Nat) :
    (x ++ y : BitVec 16).getLsbD i = if i < 8 then y.getLsbD i else x.getLsbD (i - 8) := by
  simpa using BitVec.getLsbD_append (x := x) (y := y) (i := i)

theorem halfOf_withHalf (h g : Half) (b : Byte) (v : MapReg) :
    halfOf g (withHalf h b v) = if g = h then b else halfOf g v := by
  cases h <;> cases g <;>
    (apply BitVec.eq_of_getLsbD_eq; intro i hi
     simp [halfOf, withHalf, getLsbD_byte_append, hi])

/-- A register is its two halves: writing both halves of a value writes the value. -/
theorem withHalf_high_low (v w : MapReg) :
    withHalf .high (halfOf .high v) (withHalf .low (halfOf .low v) w) = v := by
  apply BitVec.eq_of_getLsbD_eq; intro i hi
  simp only [halfOf, withHalf, BitVec.getLsbD_extractLsb', getLsbD_byte_append]
  by_cases h : i < 8
  · simp [h]
  · simp [h, show i - 8 < 8 by omega, show 8 + (i - 8) = i by omega]

@[simp] theorem MapFile.get_set (m : MapFile) (p q : Page) (v : MapReg) :
    Vector.get (m.set p v) q = if q = p then v else Vector.get m q := by
  simp only [Vector.get_eq_getElem, Vector.getElem_set, Fin.ext_iff, eq_comm]

@[simp] theorem MapFile.get_zero (p : Page) : Vector.get MapFile.zero p = 0#16 := by
  revert p; decide

theorem mapHalf_setMapHalf (p q : Page) (h g : Half) (b : Byte) (s : State) :
    mapHalf q g (setMapHalf p h b s) = if q = p ∧ g = h then b else mapHalf q g s := by
  simp only [mapHalf, setMapHalf_map, MapFile.get_set]
  by_cases hq : q = p
  · subst hq; simp [halfOf_withHalf]
  · simp [hq]

/-! ### I/O -/

/-- An I/O write changes nothing, or one half of one register. -/
theorem ioWrite_cases (pm : PortMap) (p : IoAddr) (d : Byte) (s : State) :
    (decodePort pm p = none ∧ ioWrite pm p d s = s) ∨
      ∃ q h, decodePort pm p = some (q, h) ∧ ioWrite pm p d s = setMapHalf q h d s := by
  unfold ioWrite
  rcases hp : decodePort pm p with _ | ⟨q, h⟩
  · simp
  · exact .inr ⟨q, h, rfl, rfl⟩

/-! ### The phase -/

theorem whenActive_active {s : State} (h : s.phase = .active) (o : Host.Outcome State Fault Refusal) :
    whenActive s o = o := by simp [whenActive, h]

theorem whenActive_unloaded {s : State} (h : s.phase = .unloaded) (o : Host.Outcome State Fault Refusal) :
    whenActive s o = .refused .notActive := by simp [whenActive, h]

/-- A meaning that asks for ACTIVE answers a next state only there. -/
theorem whenActive_next {s t : State} {o : Host.Outcome State Fault Refusal} (h : whenActive s o = .next t) :
    s.phase = .active ∧ o = .next t := by
  unfold whenActive at h
  split at h
  · exact ⟨‹_›, h⟩
  · cases h

theorem powerOrReset_false (s : State) : powerOrReset false s = s := rfl

theorem powerOrReset_true (s : State) : powerOrReset true s = clearMap s := rfl

/-- Preparing the phase for a word changes nothing but the phase and what LOAD initialises. -/
theorem preparePhase_cases (t : TWord) (s : State) :
    preparePhase t s = s ∨ preparePhase t s = detach s ∨ preparePhase t s = initialise s := by
  unfold preparePhase; split <;> simp

end Sys2Proof.Machine
end

