-- ==== Sys2Proof/Laws/Exec.lean ====
section
/-! SUPPORT. What a transaction and a step can do, said once (inversion lemmas of `exec` and `step`). -/

namespace Sys2Proof.Machine

/-- What a transaction other than LOAD does to the state of an ACTIVE block: nothing, a byte returned, one half of one
register, one byte of the store, or the block detached. -/
def ActiveEffect (s t : State) : Prop :=
  t = s ∨ (∃ b, t = reply (.byte b) s) ∨ (∃ p h d, t = setMapHalf p h d s) ∨ (∃ o d, t = memWrite o d s) ∨
    t = reply (.status .ok) (detach s)

theorem activeEffect_ioWrite (pm : PortMap) (p : IoAddr) (d : Byte) (s : State) :
    ActiveEffect s (ioWrite pm p d s) := by
  rcases ioWrite_cases pm p d s with ⟨-, h⟩ | ⟨q, g, -, h⟩
  · exact .inl h
  · exact .inr (.inr (.inl ⟨q, g, d, h⟩))

/-- The port map knows no port that is not 0xF8 to 0xFF (R68). -/
theorem decodePort_of_not_recognised {p : IoAddr} (h : ¬ recognised p) : decodePort portMap p = none := by
  have h' : ∀ q : Byte, 0xF8#8 ≤ q → (portOf p == q) = false := fun q hq => by
    rw [beq_eq_false_iff_ne]
    intro hp
    rw [portOf] at hp
    exact h (by rw [recognised, hp]; exact hq)
  simp [decodePort, portMap, portTable, List.lookup, h' 0xF8#8 (by decide), h' 0xF9#8 (by decide),
    h' 0xFA#8 (by decide), h' 0xFB#8 (by decide), h' 0xFC#8 (by decide), h' 0xFD#8 (by decide),
    h' 0xFE#8 (by decide), h' 0xFF#8 (by decide)]

/-- A recognised port is one of the eight (R11). -/
theorem port_cases {p : IoAddr} (h : recognised p) :
    portOf p = 0xF8#8 ∨ portOf p = 0xF9#8 ∨ portOf p = 0xFA#8 ∨ portOf p = 0xFB#8 ∨ portOf p = 0xFC#8 ∨
      portOf p = 0xFD#8 ∨ portOf p = 0xFE#8 ∨ portOf p = 0xFF#8 := by
  have h : 0xF8#8 ≤ portOf p := h
  generalize portOf p = q at h
  bv_omega

/-- What any I/O write word does, whatever row its port selects (R67). -/
theorem exec_decodeIow (p : IoAddr) (d : Byte) (s : State) :
    exec (decodeIow p d) s = whenActive s (.next (ioWrite portMap p d s)) := by
  have hp := ioAddr_portHighOf_portOf p
  by_cases hr : recognised p
  · rcases port_cases hr with h | h | h | h | h | h | h | h <;> rw [h] at hp <;>
      simp [decodeIow, h, exec, execIowF8, execIowF9, execIowFA, execIowFB, execIowFC, execIowFD, execIowFE,
        execIowFF, hp]
  · rw [decodeIow_of_not_recognised hr]
    simp [exec, execIowUnmapped, ioWrite, decodePort_of_not_recognised hr]

/-- What any I/O read word does, whatever row its port selects (R78). -/
theorem exec_decodeIor (p : IoAddr) (s : State) :
    exec (decodeIor p) s = whenActive s (.next (reply (.byte (ioRead portMap p s)) s)) := by
  have hp := ioAddr_portHighOf_portOf p
  by_cases hr : recognised p
  · rcases port_cases hr with h | h | h | h | h | h | h | h <;> rw [h] at hp <;>
      simp [decodeIor, h, exec, execIorF8, execIorF9, execIorFA, execIorFB, execIorFC, execIorFD, execIorFE,
        execIorFF, hp]
  · rw [decodeIor_of_not_recognised hr]
    simp [exec, execIorUnmapped, ioRead, decodePort_of_not_recognised hr]

/-- LOAD, from an UNLOADED block only: it initialises the block, or fails and changes nothing. -/
theorem execLoad_next {s t : State} (h : execLoad s = .next t) :
    s.phase = .unloaded ∧
      ((s.versionOk = true ∧ t = reply (.status .ok) (initialise s)) ∨
        (s.versionOk = false ∧ t = reply (.status .fail) s)) := by
  unfold execLoad at h
  split at h
  · cases h
  · split at h <;> cases h <;> simp_all

/-- What a transaction can do when it is not refused. -/
theorem exec_next_cases {i : Instr} {s t : State} (h : exec i s = .next t) :
    (s.phase = .active ∧ i ≠ .load ∧ ActiveEffect s t) ∨
      (s.phase = .unloaded ∧ i = .load ∧
        ((s.versionOk = true ∧ t = reply (.status .ok) (initialise s)) ∨
          (s.versionOk = false ∧ t = reply (.status .fail) s))) := by
  have same (u : State) : ActiveEffect u u := .inl rfl
  have ret (b : Byte) : ActiveEffect s (reply (.byte b) s) := .inr (.inl ⟨b, rfl⟩)
  cases i with
  | load => exact .inr ⟨(execLoad_next h).1, rfl, (execLoad_next h).2⟩
  | _ =>
    obtain ⟨ha, ht⟩ := whenActive_next h
    cases ht
    refine .inl ⟨ha, by simp, ?_⟩
    first
      | exact same _
      | exact ret _
      | exact activeEffect_ioWrite _ _ _ _
      | exact .inr (.inr (.inr (.inl ⟨_, _, rfl⟩)))
      | exact .inr (.inr (.inr (.inr rfl)))

/-- What a step can do when it is not refused. -/
theorem step_next_cases {s t : State} (h : step s = .next t) :
    (s.input = [] ∧ t = s) ∨
      ∃ r rest i, s.input = r :: rest ∧ decode r.word = .ok i ∧ exec i (accept r rest s) = .next t := by
  unfold step at h
  split at h
  · cases h; exact .inl ⟨‹_›, rfl⟩
  · split at h
    · cases h
    · exact .inr ⟨_, _, _, ‹_›, ‹_›, h⟩

end Sys2Proof.Machine
end

