-- ==== Sys2Proof/Laws/PerInstr.lean ====
section
/-! SUPPORT. One lemma per constructor of `Instr`: the word of each transaction matches its own row of the opcode table
(R60; opcode_table.json). -/

namespace Sys2Proof.Laws

/-- A row that fixes `rsv` and `kind` matches a word by its kind alone. -/
theorem hits_kind {k : BitVec 3} {a : BitVec 16} {d : Byte} {mn : String} {pat : TWord}
    (h : pat = assemble k 0#16 0#8) : (OpcodeRow.mk mn pat 0xFF000000#32).hits (assemble k a d) = true := by
  subst h
  rw [OpcodeRow.hits, beq_iff_eq]
  apply and_mask_eq_of_bits
  intro i hi
  simp only [assemble_getLsbD]
  interval_cases i <;> simp

/-- A row that fixes `rsv`, `kind` and the port matches a word by its kind and its port. -/
theorem hits_port {k : BitVec 3} {hi port d : Byte} {mn : String} {pat : TWord}
    (h : pat = assemble k (ioAddr 0#8 port) 0#8) :
    (OpcodeRow.mk mn pat 0xFF00FF00#32).hits (assemble k (ioAddr hi port) d) = true := by
  subst h
  rw [OpcodeRow.hits, beq_iff_eq]
  apply and_mask_eq_of_bits
  intro i hi
  simp only [assemble_getLsbD, ioAddr_getLsbD]
  interval_cases i <;> simp

/-- The word of `i` matches the row of `i`. -/
def EncodeHitsRow.Statement (i : Instr) : Prop := (rowOf i).hits (encode i) = true

theorem EncodeHitsRow.mrd (a : CpuAddr) : EncodeHitsRow.Statement (.mrd a) := by
  apply hits_kind; decide

theorem EncodeHitsRow.mwr (a : CpuAddr) (d : Byte) : EncodeHitsRow.Statement (.mwr a d) := by
  apply hits_kind; decide

theorem EncodeHitsRow.mpk (a : CpuAddr) : EncodeHitsRow.Statement (.mpk a) := by
  apply hits_kind; decide

theorem EncodeHitsRow.iowF8 (pHi : Byte) (d : Byte) : EncodeHitsRow.Statement (.iowF8 pHi d) := by
  apply hits_port; decide

theorem EncodeHitsRow.iowF9 (pHi : Byte) (d : Byte) : EncodeHitsRow.Statement (.iowF9 pHi d) := by
  apply hits_port; decide

theorem EncodeHitsRow.iowFA (pHi : Byte) (d : Byte) : EncodeHitsRow.Statement (.iowFA pHi d) := by
  apply hits_port; decide

theorem EncodeHitsRow.iowFB (pHi : Byte) (d : Byte) : EncodeHitsRow.Statement (.iowFB pHi d) := by
  apply hits_port; decide

theorem EncodeHitsRow.iowFC (pHi : Byte) (d : Byte) : EncodeHitsRow.Statement (.iowFC pHi d) := by
  apply hits_port; decide

theorem EncodeHitsRow.iowFD (pHi : Byte) (d : Byte) : EncodeHitsRow.Statement (.iowFD pHi d) := by
  apply hits_port; decide

theorem EncodeHitsRow.iowFE (pHi : Byte) (d : Byte) : EncodeHitsRow.Statement (.iowFE pHi d) := by
  apply hits_port; decide

theorem EncodeHitsRow.iowFF (pHi : Byte) (d : Byte) : EncodeHitsRow.Statement (.iowFF pHi d) := by
  apply hits_port; decide

theorem EncodeHitsRow.iowUnmapped (p : IoAddr) (d : Byte) : EncodeHitsRow.Statement (.iowUnmapped p d) := by
  apply hits_kind; decide

theorem EncodeHitsRow.iorF8 (pHi : Byte) : EncodeHitsRow.Statement (.iorF8 pHi) := by
  apply hits_port; decide

theorem EncodeHitsRow.iorF9 (pHi : Byte) : EncodeHitsRow.Statement (.iorF9 pHi) := by
  apply hits_port; decide

theorem EncodeHitsRow.iorFA (pHi : Byte) : EncodeHitsRow.Statement (.iorFA pHi) := by
  apply hits_port; decide

theorem EncodeHitsRow.iorFB (pHi : Byte) : EncodeHitsRow.Statement (.iorFB pHi) := by
  apply hits_port; decide

theorem EncodeHitsRow.iorFC (pHi : Byte) : EncodeHitsRow.Statement (.iorFC pHi) := by
  apply hits_port; decide

theorem EncodeHitsRow.iorFD (pHi : Byte) : EncodeHitsRow.Statement (.iorFD pHi) := by
  apply hits_port; decide

theorem EncodeHitsRow.iorFE (pHi : Byte) : EncodeHitsRow.Statement (.iorFE pHi) := by
  apply hits_port; decide

theorem EncodeHitsRow.iorFF (pHi : Byte) : EncodeHitsRow.Statement (.iorFF pHi) := by
  apply hits_port; decide

theorem EncodeHitsRow.iorUnmapped (p : IoAddr) : EncodeHitsRow.Statement (.iorUnmapped p) := by
  apply hits_kind; decide

theorem EncodeHitsRow.iop (p : IoAddr) : EncodeHitsRow.Statement (.iop p) := by
  apply hits_kind; decide

theorem EncodeHitsRow.load : EncodeHitsRow.Statement .load := by
  simp only [EncodeHitsRow.Statement]; decide

theorem EncodeHitsRow.unload : EncodeHitsRow.Statement .unload := by
  simp only [EncodeHitsRow.Statement]; decide

theorem EncodeHitsRow.pwrup : EncodeHitsRow.Statement .pwrup := by
  simp only [EncodeHitsRow.Statement]; decide

theorem EncodeHitsRow.pwrdn : EncodeHitsRow.Statement .pwrdn := by
  simp only [EncodeHitsRow.Statement]; decide

theorem EncodeHitsRow.rst : EncodeHitsRow.Statement .rst := by
  simp only [EncodeHitsRow.Statement]; decide

theorem EncodeHitsRow.idle : EncodeHitsRow.Statement .idle := by
  simp only [EncodeHitsRow.Statement]; decide

end Sys2Proof.Laws
end

