-- ==== Sys2Proof/Laws/Step.lean ====
section
/-! SUPPORT. What `State.withFetchWord` leaves for the next step. -/

namespace Sys2Proof.Machine

/-- The word is the next transaction, ahead of those pending, with the version check passing. -/
theorem withFetchWord_input (s : State) (nbits w : Nat) :
    (s.withFetchWord nbits w).input = ⟨BitVec.ofNat 32 (w % 2 ^ nbits), true⟩ :: s.input := by
  simp only [State.withFetchWord, deliverNext]
  rcases preparePhase_cases (BitVec.ofNat 32 (w % 2 ^ nbits)) s with h | h | h <;> rw [h] <;> rfl

/-- For a word that names a transaction, the block is in the phase in which the host may deliver it (R20, R94). -/
theorem withFetchWord_phase {s : State} {nbits w : Nat} {i : Instr}
    (h : decode (BitVec.ofNat 32 (w % 2 ^ nbits)) = .ok i) :
    (s.withFetchWord nbits w).phase = if i = .load then .unloaded else .active := by
  simp only [State.withFetchWord, deliverNext, preparePhase, h]
  cases i <;> cases hp : s.phase <;> simp [hp]

end Sys2Proof.Machine
end

