-- ==== Sys2Proof/Machine/Flags.lean ====
section
/-! DEFINITION. The flag computations: there are none. The block has no flags, condition codes or predicates, and no
transaction sets or reads a status bit (10_state.md R23); every rule R61 to R99 says "Flags written: none". -/
end

