-- ==== Sys2Proof/Tests/Slice0.lean ====
section
/-! SUPPORT. The model's own tests, each of one word or one step; the expected values come from the rules' worked examples
and from 95_test_vectors.md (named in each comment). At the end, one witness for the hypotheses of each statement. -/

namespace Sys2Proof.Tests

open Sys2Proof.Machine

/-! ### Helpers -/

/-- An ACTIVE block in its first session, with these registers and this written part of the store. -/
def blk (m : MapFile) (st : Memory) : State := { State.reset with phase := .active, map := m, store := st, draw := 1 }

/-- The start state of section 3 of 95_test_vectors.md. -/
def w3 : State := blk #v[0x1111#16, 0x2222#16, 0x3333#16, 0x4444#16] []

/-- The start state of section 4 of 95_test_vectors.md. -/
def r4 : State := blk #v[0x0102#16, 0x0304#16, 0x0506#16, 0x0708#16] []

/-- The start state of V43 and V44. -/
def l6 : State := blk #v[0x0001#16, 0x0002#16, 0x0003#16, 0x0004#16] []

/-- One field of the next state, if there is one. -/
def after {α : Type} (f : State → α) : Host.Outcome State Fault Refusal → Option α
  | .next t => some (f t)
  | .fault _ => none
  | .refused _ => none

/-- Why a step was refused. -/
def why : Host.Outcome State Fault Refusal → Option Refusal
  | .refused q => some q
  | .next _ => none
  | .fault _ => none

/-! ### WellFormed: each check refuses an ill-formed term (R77, R87), at the edges of 0xF8 to 0xFF -/

theorem test_wellFormed_iowUnmapped :
    WellFormed (.iowUnmapped 0x00F8 0) = false ∧ WellFormed (.iowUnmapped 0x12FF 0) = false ∧
      WellFormed (.iowUnmapped 0x00F7 0) = true ∧ WellFormed (.iowUnmapped 0xFF00 0) = true := by decide

theorem test_wellFormed_iorUnmapped :
    WellFormed (.iorUnmapped 0x00F8) = false ∧ WellFormed (.iorUnmapped 0xABFF) = false ∧
      WellFormed (.iorUnmapped 0x00F7) = true ∧ WellFormed (.iorUnmapped 0xF800) = true := by decide

/-! ### Decode: each row's word, bit by bit from the table's `encoding` string (rsv, kind, addr, data) -/

theorem test_decode_mrd :
    decode 0b00000_000_1100000000000001_11111111#32 = .ok (.mrd 0xC001) := by decide

theorem test_decode_mwr :
    decode 0b00000_001_1100000000000000_01000010#32 = .ok (.mwr 0xC000 0x42) := by decide

theorem test_decode_mpk :
    decode 0b00000_010_1111111111111111_00000000#32 = .ok (.mpk 0xFFFF) := by decide

theorem test_decode_iowF8 :
    decode 0b00000_100_0001001011111000_10100101#32 = .ok (.iowF8 0x12 0xA5) := by decide

theorem test_decode_iowF9 :
    decode 0b00000_100_0001001011111001_10100101#32 = .ok (.iowF9 0x12 0xA5) := by decide

theorem test_decode_iowFA :
    decode 0b00000_100_0001001011111010_10100101#32 = .ok (.iowFA 0x12 0xA5) := by decide

theorem test_decode_iowFB :
    decode 0b00000_100_0001001011111011_10100101#32 = .ok (.iowFB 0x12 0xA5) := by decide

theorem test_decode_iowFC :
    decode 0b00000_100_0001001011111100_10100101#32 = .ok (.iowFC 0x12 0xA5) := by decide

theorem test_decode_iowFD :
    decode 0b00000_100_0001001011111101_10100101#32 = .ok (.iowFD 0x12 0xA5) := by decide

theorem test_decode_iowFE :
    decode 0b00000_100_0001001011111110_10100101#32 = .ok (.iowFE 0x12 0xA5) := by decide

theorem test_decode_iowFF :
    decode 0b00000_100_0001001011111111_10100101#32 = .ok (.iowFF 0x12 0xA5) := by decide

theorem test_decode_iowUnmapped :
    decode 0b00000_100_1111100000000000_00000001#32 = .ok (.iowUnmapped 0xF800 0x01) := by decide

theorem test_decode_iorF8 :
    decode 0b00000_011_1010101111111000_11101110#32 = .ok (.iorF8 0xAB) := by decide

theorem test_decode_iorF9 :
    decode 0b00000_011_1010101111111001_11101110#32 = .ok (.iorF9 0xAB) := by decide

theorem test_decode_iorFA :
    decode 0b00000_011_1010101111111010_11101110#32 = .ok (.iorFA 0xAB) := by decide

theorem test_decode_iorFB :
    decode 0b00000_011_1010101111111011_11101110#32 = .ok (.iorFB 0xAB) := by decide

theorem test_decode_iorFC :
    decode 0b00000_011_1010101111111100_11101110#32 = .ok (.iorFC 0xAB) := by decide

theorem test_decode_iorFD :
    decode 0b00000_011_1010101111111101_11101110#32 = .ok (.iorFD 0xAB) := by decide

theorem test_decode_iorFE :
    decode 0b00000_011_1010101111111110_11101110#32 = .ok (.iorFE 0xAB) := by decide

theorem test_decode_iorFF :
    decode 0b00000_011_1010101111111111_11101110#32 = .ok (.iorFF 0xAB) := by decide

theorem test_decode_iorUnmapped :
    decode 0b00000_011_0000000011110111_00000000#32 = .ok (.iorUnmapped 0x00F7) := by decide

theorem test_decode_iop :
    decode 0b00000_101_0011010011111101_11111111#32 = .ok (.iop 0x34FD) := by decide

theorem test_decode_load :
    decode 0b00000_110_1010101010101000_01010101#32 = .ok (.load) := by decide

theorem test_decode_unload :
    decode 0b00000_110_1010101010101001_01010101#32 = .ok (.unload) := by decide

theorem test_decode_pwrup :
    decode 0b00000_110_1010101010101010_01010101#32 = .ok (.pwrup) := by decide

theorem test_decode_pwrdn :
    decode 0b00000_110_1010101010101011_01010101#32 = .ok (.pwrdn) := by decide

theorem test_decode_rst :
    decode 0b00000_110_1010101010101100_01010101#32 = .ok (.rst) := by decide

theorem test_decode_idle :
    decode 0b00000_110_1010101010101101_01010101#32 = .ok (.idle) := by decide

/-- V62 to V65, and the reserved CTRL code 111. -/
theorem test_decode_reserved :
    decode 0b00000_110_0000000000000110_00000000#32 = .error .reservedEvent ∧
      decode 0b00000_110_0000000000000111_00000000#32 = .error .reservedEvent ∧
      decode 0b00000_111_0000000000000000_00000000#32 = .error .reservedKind ∧
      decode 0b00001_000_0000000000000000_00000000#32 = .error .reservedBits ∧
      decode 0b10000_000_0000000000000000_00000000#32 = .error .reservedBits := by decide

/-- The words of the programs P1 and P5 (95_test_vectors.md section 8). -/
theorem test_asmWord :
    asmWord .load = 0x06000000#32 ∧ asmWord (.iow 0x00F8 0x01) = 0x0400F801#32 ∧
      asmWord (.mwr 0xC000 0xAB) = 0x01C000AB#32 ∧ asmWord (.ior 0x00F8) = 0x0300F800#32 ∧
      asmWord (.mpk 0xC000) = 0x02C00000#32 ∧ asmWord (.iop 0x99FF) = 0x0599FF00#32 ∧
      (setmap 1 0x0005).map asmWord = [0x0400FA00#32, 0x0400FE05#32] := by decide

/-- The 28 rows are distinct, and each is spelled as the table spells it at its ends. -/
theorem test_opcodeRows :
    opcodeRows.length = 28 ∧ opcodeRows.Nodup ∧ opcodeRows.head? = some ⟨"MRD", 0x00000000#32, 0xFF000000#32⟩ ∧
      opcodeRows.getLast? = some ⟨"IDLE", 0x06000500#32, 0xFF000700#32⟩ := by decide

/-! ### TRANSLATE: T1 to T14 -/

theorem test_translate_T1_T7 :
    translateAddr #v[0x0000, 0x0000, 0x0000, 0x0000] 0x0000 = 0x000000 ∧
      translateAddr #v[0x0000, 0x0000, 0x0000, 0x0000] 0xFFFF = 0x003FFF ∧
      translateAddr #v[0x0000, 0x0001, 0x0000, 0x0000] 0x4000 = 0x004000 ∧
      translateAddr #v[0x0000, 0x0000, 0x0000, 0x0100] 0xC000 = 0x400000 ∧
      translateAddr #v[0x0003, 0x0000, 0x0000, 0x0000] 0x3FFF = 0x00FFFF ∧
      translateAddr #v[0x0003, 0x0004, 0x0000, 0x0000] 0x4000 = 0x010000 ∧
      translateAddr #v[0x0000, 0x0000, 0x03FF, 0x0000] 0xBFFF = 0xFFFFFF := by decide

theorem test_translate_T8_T14 :
    translateAddr #v[0x0000, 0x0400, 0x0000, 0x0000] 0x4123 = 0x000123 ∧
      translateAddr #v[0x0000, 0x0000, 0x0000, 0xFFFF] 0xFFFF = 0xFFFFFF ∧
      translateAddr #v[0x0000, 0x0000, 0x0000, 0xFC01] 0xC001 = 0x004001 ∧
      translateAddr #v[0x1234, 0x0000, 0x0000, 0x0000] 0x2ABC = 0x8D2ABC ∧
      translateAddr #v[0xFFFF, 0xFFFF, 0xFFFF, 0xFFFF] 0x0000 = 0xFFC000 ∧
      translateAddr #v[0x0200, 0x0000, 0x0000, 0x0000] 0x0000 = 0x800000 ∧
      translateAddr #v[0x0000, 0x0000, 0x0001, 0x0000] 0x8000 = 0x004000 := by decide

/-! ### The store's list -/

theorem test_memory_write :
    Memory.write [(1, 0x11), (5, 0x55)] 3 0x33 = [(1, 0x11), (3, 0x33), (5, 0x55)] ∧
      Memory.write [(1, 0x11), (5, 0x55)] 5 0x66 = [(1, 0x11), (5, 0x66)] ∧
      Memory.write [(1, 0x11)] 0xFFFFFF 0x44 = [(1, 0x11), (0xFFFFFF, 0x44)] := by decide

/-! ### Memory access -/

/-- R89's example. -/
theorem test_mrd :
    after State.output (exec (.mrd 0x4000) (blk #v[0x0000, 0x0001, 0x0000, 0x0000] [(0x004000, 0x5A)])) =
      some [.byte 0x5A] := by decide

/-- V40: a register with bit 10 set wraps to segment 0. -/
theorem test_mrd_wraps :
    after State.output (exec (.mrd 0x0123) (blk #v[0x0400, 0x0000, 0x0000, 0x0000] [(0x000123, 0x66)])) =
      some [.byte 0x66] := by decide

/-- W4: page 1 maps segment 1. -/
theorem test_mwr :
    after State.store (exec (.mwr 0x4000 0x33) (blk #v[0x0000, 0x0001, 0x0000, 0x0000] [])) =
      some [(0x004000, 0x33)] := by decide

/-- V37: the last offset of the store. -/
theorem test_mwr_top :
    after State.store (exec (.mwr 0xFFFF 0x44) (blk #v[0x0000, 0x0000, 0x0000, 0xFFFF] [])) =
      some [(0xFFFFFF, 0x44)] := by decide

/-- R91's example. -/
theorem test_mpk :
    after State.output (exec (.mpk 0xC000) (blk #v[0x0000, 0x0000, 0x0000, 0x0100] [(0x400000, 0x77)])) =
      some [.byte 0x77] := by decide

/-! ### I/O write: V1 to V17 -/

/-- V1. -/
theorem test_iowF8 : after State.map (exec (.iowF8 0x00 0xA5) w3) = some #v[0x1111, 0x2222, 0x3333, 0xA544] := by decide

/-- V2. -/
theorem test_iowF9 : after State.map (exec (.iowF9 0x00 0xA5) w3) = some #v[0x1111, 0x2222, 0xA533, 0x4444] := by decide

/-- V3. -/
theorem test_iowFA : after State.map (exec (.iowFA 0x00 0xA5) w3) = some #v[0x1111, 0xA522, 0x3333, 0x4444] := by decide

/-- V4. -/
theorem test_iowFB : after State.map (exec (.iowFB 0x00 0xA5) w3) = some #v[0xA511, 0x2222, 0x3333, 0x4444] := by decide

/-- V5. -/
theorem test_iowFC : after State.map (exec (.iowFC 0x00 0xA5) w3) = some #v[0x1111, 0x2222, 0x3333, 0x44A5] := by decide

/-- V6. -/
theorem test_iowFD : after State.map (exec (.iowFD 0x00 0xA5) w3) = some #v[0x1111, 0x2222, 0x33A5, 0x4444] := by decide

/-- V7. -/
theorem test_iowFE : after State.map (exec (.iowFE 0x00 0xA5) w3) = some #v[0x1111, 0x22A5, 0x3333, 0x4444] := by decide

/-- V8. -/
theorem test_iowFF : after State.map (exec (.iowFF 0x00 0xA5) w3) = some #v[0x11A5, 0x2222, 0x3333, 0x4444] := by decide

/-- V9. -/
theorem test_iowFF_zero : after State.map (exec (.iowFF 0x00 0x00) w3) = some #v[0x1100, 0x2222, 0x3333, 0x4444] := by
  decide

/-- V11: `P[15:8]` is ignored. -/
theorem test_iowFB_high_byte :
    after State.map (exec (.iowFB 0x12 0x77) w3) = some #v[0x7711, 0x2222, 0x3333, 0x4444] := by decide

/-- V17: the low byte decides. -/
theorem test_iowUnmapped :
    after State.map (exec (.iowUnmapped 0xFB44 0x00) w3) = some #v[0x1111, 0x2222, 0x3333, 0x4444] := by decide

/-! ### I/O read and peek: V18 to V33 -/

/-- V18. -/
theorem test_iorF8 : after State.output (exec (.iorF8 0x00) r4) = some [.byte 0x07] := by decide

/-- V19. -/
theorem test_iorF9 : after State.output (exec (.iorF9 0x00) r4) = some [.byte 0x05] := by decide

/-- V20. -/
theorem test_iorFA : after State.output (exec (.iorFA 0x00) r4) = some [.byte 0x03] := by decide

/-- V21. -/
theorem test_iorFB : after State.output (exec (.iorFB 0x00) r4) = some [.byte 0x01] := by decide

/-- V22. -/
theorem test_iorFC : after State.output (exec (.iorFC 0x00) r4) = some [.byte 0x08] := by decide

/-- V23. -/
theorem test_iorFD : after State.output (exec (.iorFD 0x00) r4) = some [.byte 0x06] := by decide

/-- V24. -/
theorem test_iorFE : after State.output (exec (.iorFE 0x00) r4) = some [.byte 0x04] := by decide

/-- V25. -/
theorem test_iorFF : after State.output (exec (.iorFF 0x00) r4) = some [.byte 0x02] := by decide

/-- V29. -/
theorem test_iorUnmapped : after State.output (exec (.iorUnmapped 0xFF00) r4) = some [.byte 0xFF] := by decide

/-- V33. -/
theorem test_iop : after State.output (exec (.iop 0x34FD) r4) = some [.byte 0x06] := by decide

/-- V32. -/
theorem test_iop_unmapped : after State.output (exec (.iop 0x0010) r4) = some [.byte 0xFF] := by decide

/-! ### Lifecycle: V41 to V49 -/

/-- V41. -/
theorem test_load :
    after (fun t => (t.phase, t.map, t.output)) (exec .load (detach { l6 with versionOk := true })) =
        some (.active, #v[0, 0, 0, 0], [.status .ok]) ∧
      after State.store (exec .load (detach (memWrite 0 0x5A { l6 with versionOk := true }))) = some [] := by decide

/-- V42. -/
theorem test_load_fails :
    after (fun t => (t.phase, t.map, t.output)) (exec .load (detach l6)) =
      some (.unloaded, #v[1, 2, 3, 4], [.status .fail]) := by decide

/-- V48, first transaction. -/
theorem test_unload : after (fun t => (t.phase, t.output)) (exec .unload l6) = some (.unloaded, [.status .ok]) := by decide

/-- V44. -/
theorem test_pwrup : after State.map (exec .pwrup l6) = some #v[1, 2, 3, 4] := by decide

/-- V44. -/
theorem test_pwrdn : after State.map (exec .pwrdn l6) = some #v[1, 2, 3, 4] := by decide

/-- V43. -/
theorem test_rst : after State.map (exec .rst l6) = some #v[1, 2, 3, 4] := by decide

/-- V45: with `RESET_CLEARS_MAP` true. -/
theorem test_rst_clearing : (powerOrReset true l6).map = #v[0, 0, 0, 0] := by decide

/-- V44. -/
theorem test_idle : after State.map (exec .idle l6) = some #v[1, 2, 3, 4] := by decide

/-! ### The step -/

/-- V49: MRD while UNLOADED. -/
theorem test_step_not_active : why (step { State.reset with input := [⟨0x00000000, true⟩] }) = some .notActive := by decide

/-- V47: LOAD while ACTIVE. -/
theorem test_step_already_active : why (step { l6 with input := [⟨0x06000000, true⟩] }) = some .alreadyActive := by decide

/-- R105: a reserved word while UNLOADED reports ReservedEncoding. -/
theorem test_step_reserved_unloaded :
    why (step { State.reset with input := [⟨0x07000000, true⟩] }) = some .reservedEncoding := by decide

/-- P1, line 1, as the first step from the state before LOAD. -/
theorem test_step_load :
    after (fun t => (t.phase, t.input.length)) (step { State.reset with input := [⟨0x06000000, true⟩, ⟨0x0400F801, true⟩] }) =
      some (.active, 1) := by decide

/-- The host's placing of a word: P1, line 2, and LOAD, each as the first step. -/
theorem test_withFetchWord :
    after (fun t => t.map) (step (State.reset.withFetchWord 32 0x0400F801)) = some #v[0, 0, 0, 0x0100] ∧
      after (fun t => t.phase) (step (State.reset.withFetchWord 32 0x06000000)) = some .active := by decide

/-! ### The port decoder's signals: the eight rows of R53 and one other -/

theorem test_portDecoderOut :
    portDecoderOut 0xF8 = ⟨true, 3, true⟩ ∧ portDecoderOut 0xF9 = ⟨true, 2, true⟩ ∧
      portDecoderOut 0xFA = ⟨true, 1, true⟩ ∧ portDecoderOut 0xFB = ⟨true, 0, true⟩ ∧
      portDecoderOut 0xFC = ⟨true, 3, false⟩ ∧ portDecoderOut 0xFD = ⟨true, 2, false⟩ ∧
      portDecoderOut 0xFE = ⟨true, 1, false⟩ ∧ portDecoderOut 0xFF = ⟨true, 0, false⟩ ∧
      (portDecoderOut 0xF7).hit = false := by decide

/-! ### Witnesses: a concrete state and operands that meet each statement's hypotheses together -/

/-- `l6` with one word pending. -/
def l6w (t : TWord) : State := { l6 with input := [⟨t, true⟩] }

/-- An UNLOADED block to which a LOAD that passes is presented. -/
def u6 : State := detach { l6 with versionOk := true }

theorem test_witness_StepRunsDecodedTransaction :
    (l6w 0x00400000).input = [⟨0x00400000, true⟩] ∧ decode 0x00400000#32 = .ok (.mrd 0x4000) := by decide

theorem test_witness_StepWithNothingPendingWaits : State.reset.input = [] := by decide

/-- The three kinds of reserved word, at the edges of their fields. -/
theorem test_witness_ReservedWordsAreRefused :
    reservedWord 0x08000000#32 ∧ reservedWord 0xF8000000#32 ∧ reservedWord 0x07FFFFFF#32 ∧
      reservedWord 0x06000600#32 ∧ reservedWord 0x06FFFFFF#32 ∧
      (l6w 0x07FFFFFF).input = [⟨0x07FFFFFF, true⟩] := by decide

theorem test_witness_DecodeFollowsOpcodeTable :
    ¬ reservedWord 0x00000000#32 ∧ ¬ reservedWord 0x06FFFDFF#32 ∧
      (rowOf (.iowF8 0 0)) ∈ opcodeRows ∧ (rowOf (.iowF8 0 0)).mask = 0xFF00FF00#32 ∧
      (rowOf (.iowF8 0 0)).hits 0x0412F8FF#32 = true ∧ ¬ reservedWord 0x0412F8FF#32 := by decide

theorem test_witness_DecodeInvertsEncode :
    WellFormed (.iowUnmapped 0xFFF7 0xFF) = true ∧ WellFormed (.mwr 0xFFFF 0xFF) = true := by decide

theorem test_witness_EncodeInvertsDecode : decode 0x0312FBEE#32 = .ok (.iorFB 0x12) := by decide

theorem test_witness_IgnoredBitsDoNotChangeDecode :
    decode 0x06000000#32 = .ok .load ∧
      0x06FFF8FF#32 &&& caredBits .load = 0x06000000#32 &&& caredBits .load := by decide

theorem test_witness_IoAddressHighByteIsIgnored : (0b011#3 : BitVec 3) = 0b011#3 ∨ (0b011#3 : BitVec 3) = 0b100#3 := by
  decide

theorem test_witness_StepKeepsInvariant :
    Inv (l6w 0x01C000AB) ∧ step (l6w 0x01C000AB) =
      .next { l6 with versionOk := true, store := [(0x010000, 0xAB)] } := ⟨by decide, rfl⟩

/-- LOAD that passes, UNLOAD, another transaction, and a transaction while UNLOADED. -/
theorem test_witness_PhaseFollowsLoadAndUnload :
    exec .load u6 = .next (reply (.status .ok) (initialise u6)) ∧
      exec .load (detach l6) = .next (reply (.status .fail) (detach l6)) ∧
      exec .unload l6 = .next (reply (.status .ok) (detach l6)) ∧ exec .idle l6 = .next l6 ∧
      u6.phase = .unloaded ∧ Instr.idle ≠ .load := ⟨rfl, rfl, rfl, rfl, rfl, by decide⟩

theorem test_witness_EveryTransactionCompletes :
    u6.phase = phaseFor .load ∧ l6.phase = phaseFor (.mrd 0xFFFF) ∧ l6.phase = phaseFor .unload := by decide

/-- Both sides of the equivalence occur. -/
theorem test_witness_StepCompletesExactlyWhenHostKeepsDuty :
    after State.phase (step (l6w 0x06000500)) = some .active ∧ why (step (l6w 0x06000000)) = some .alreadyActive := by
  decide

theorem test_witness_StepTakesOldestTransaction :
    step (l6w 0x06000500) = .next { l6 with versionOk := true } ∧ exec .idle l6 = .next l6 := ⟨rfl, rfl⟩

theorem test_witness_LaterDeliveryDoesNotMatter :
    (l6w 0x06000500).input ≠ [] ∧ step (l6w 0x06000500) = .next { l6 with versionOk := true } ∧
      (l6w 0x07000000).input ≠ [] ∧ step (l6w 0x07000000) = .refused .reservedEncoding :=
  ⟨by decide, rfl, by decide, rfl⟩

/-- One transaction of each reply kind. -/
theorem test_witness_TransactionsReturnWhatTheHostTableSays :
    replyKind (.iorF8 0) = .byte ∧ exec (.iorF8 0) l6 = .next (reply (.byte 0x00) l6) ∧
      replyKind .unload = .status ∧ exec .unload l6 = .next (reply (.status .ok) (detach l6)) ∧
      replyKind .idle = .nothing ∧ exec .idle l6 = .next l6 := ⟨rfl, rfl, rfl, rfl, rfl, rfl⟩

theorem test_witness_TranslateClosedForm :
    (0 : Page).val = (0x3FFF#16).toNat / 16384 ∧ (3 : Page).val = (0xC000#16).toNat / 16384 := by decide

/-- Both ends of each page. -/
theorem test_witness_PageSelectByAddressRange :
    (0x3FFF#16).toNat ≤ 0x3FFF ∧ 0x4000 ≤ (0x4000#16).toNat ∧ (0x7FFF#16).toNat ≤ 0x7FFF ∧
      0x8000 ≤ (0x8000#16).toNat ∧ (0xBFFF#16).toNat ≤ 0xBFFF ∧ 0xC000 ≤ (0xC000#16).toNat ∧
      pageSelect l6.map 0x3FFF = 1 ∧ pageSelect l6.map 0x4000 = 2 ∧ pageSelect l6.map 0x7FFF = 2 ∧
      pageSelect l6.map 0x8000 = 3 ∧ pageSelect l6.map 0xBFFF = 3 ∧ pageSelect l6.map 0xC000 = 4 := by decide

theorem test_witness_SegmentNumbersWrapModulo1024 :
    pageOf 0x4123 = 1 ∧ (0x0400#16).toNat % 1024 = (0x0000#16).toNat % 1024 := by decide

theorem test_witness_AliasesShareTheByte :
    (blk #v[0x0000, 0x0400, 0, 0] []).phase = .active ∧
      translateAddr #v[0x0000, 0x0400, 0, 0] 0x0010 = translateAddr #v[0x0000, 0x0400, 0, 0] 0x4010 := by decide

theorem test_witness_OffsetsAcrossPageBoundary :
    (0x3FFF#16).toNat % 16384 = 16383 ∧ (0x3FFF#16).toNat < 0xC000 ∧ (0xBFFF#16).toNat % 16384 = 16383 ∧
      (0xBFFF#16).toNat < 0xC000 := by decide

theorem test_witness_AllPagesAliasAfterLoad : u6.phase = .unloaded ∧ u6.versionOk = true := by decide

/-- A written and an unwritten offset. -/
theorem test_witness_MrdReturnsTranslatedByte :
    (blk MapFile.zero [(0, 0x5A)]).phase = .active ∧
      (blk MapFile.zero [(0, 0x5A)]).store.read? (translateAddr MapFile.zero 0x0001).toNat = none ∧
      (blk MapFile.zero [(0, 0x5A)]).store.read? (translateAddr MapFile.zero 0xC000).toNat = some 0x5A := by decide

theorem test_witness_MwrStoresExactlyOneByte :
    l6.phase = .active ∧ (0x000000 : Offset) ≠ translateAddr l6.map 0xFFFF := by decide

theorem test_witness_PeekEqualsRead : l6.phase = .active := by decide

/-- A read repeated after a bus-idle notification. -/
theorem test_witness_RepeatedReadsReturnTheSame :
    replyKind (.iorFF 0) = .byte ∧ exec (.iorFF 0) l6 = .next (reply (.byte 0x01) l6) ∧
      (∀ j ∈ [Instr.idle], halfWritten j = none ∧ byteStored l6.map j = none ∧ j ≠ .load ∧ j ≠ .unload) ∧
      execAll [.idle] (reply (.byte 0x01) l6) = .next (reply (.byte 0x01) l6) := ⟨rfl, rfl, by decide, rfl⟩

/-- An MWR and a transaction that stores nothing. -/
theorem test_witness_OnlyMwrWritesTheStore :
    exec (.mwr 0xC000 0xAB) l6 = .next { l6 with store := [(0x010000, 0xAB)] } ∧ exec .idle l6 = .next l6 ∧
      Instr.idle ≠ .load := ⟨rfl, rfl, by decide⟩

theorem test_witness_PageWritesStayInMappedSegment :
    exec (.mwr 0xC000 0xAB) l6 = .next { l6 with store := [(0x010000, 0xAB)] } ∧
      (0x00FFFF : Offset).toNat / 16384 ≠ (pageSelect l6.map 0xC000).toNat % 1024 := ⟨rfl, by decide⟩

theorem test_witness_IowPortsWriteOneHalf : w3.phase = .active := by decide

theorem test_witness_IowUnmappedChangesNothing :
    l6.phase = .active ∧ ¬ recognised 0xFBF7 ∧ ¬ recognised 0xF800 ∧
      (l6w (assemble 0b100 0xFBF7 0x99)).input = [⟨assemble 0b100#3 0xFBF7 0x99, true⟩] := by decide

theorem test_witness_IorPortsReturnTheirHalf : r4.phase = .active := by decide

theorem test_witness_IorUnmappedReturnsFF :
    l6.phase = .active ∧ ¬ recognised 0x00F7 ∧ ¬ recognised 0xFF00 ∧
      (l6w (assemble 0b011 0x00F7 0x99)).input = [⟨assemble 0b011#3 0x00F7 0x99, true⟩] := by decide

theorem test_witness_IopReturnsWhatIorReturns : r4.phase = .active := by decide

theorem test_witness_PortRoundTrip :
    l6.phase = .active ∧ recognised 0x00F8 ∧ recognised 0x12FF ∧ decodePort portMap 0x00F8 ≠ none := by decide

/-- A transaction that writes no half, one that writes one, and a LOAD. -/
theorem test_witness_OnlyIowWritesMappingRegisters :
    exec .idle l6 = .next l6 ∧ halfWritten .idle = none ∧
      exec (.iowF8 0 0xA5) l6 = .next (setMapHalf 3 .high 0xA5 l6) ∧
      halfWritten (.iowF8 0 0xA5) = some (3, .high, 0xA5) ∧ ((3, .low) : Page × Half) ≠ (3, .high) ∧
      exec .load u6 = .next (reply (.status .ok) (initialise u6)) ∧ u6.versionOk = true :=
  ⟨rfl, rfl, rfl, rfl, by decide, rfl, rfl⟩

theorem test_witness_SetmapAndGetmapExpand :
    { l6 with input := requestsOf (setmap 0 0xA5C3) }.phase = .active ∧
      { l6 with input := requestsOf (setmap 0 0xA5C3) }.input = requestsOf (setmap 0 0xA5C3) ++ [] ∧
      { l6 with input := requestsOf (getmap 3) }.input = requestsOf (getmap 3) ++ [] := by decide

theorem test_witness_MixedValueBetweenTwoWrites : l6.phase = .active ∧ pageOf 0x8000 = 2 := by decide

theorem test_witness_LoadInitialisesTheBlock : u6.phase = .unloaded ∧ u6.versionOk = true := by decide

theorem test_witness_EachLoadTakesAFreshDraw :
    exec .load u6 = .next (reply (.status .ok) (initialise u6)) ∧ exec .idle l6 = .next l6 := ⟨rfl, rfl⟩

theorem test_witness_FailedLoadChangesNothing : (detach l6).phase = .unloaded ∧ (detach l6).versionOk = false := by decide

theorem test_witness_LoadWhileActiveIsRefused : l6.phase = .active := by decide

theorem test_witness_UnloadDetachesTheBlock :
    l6.phase = .active ∧ Instr.unload ≠ .load ∧ u6.phase = .unloaded := by decide

/-- A later LOAD completes, a later MRD is refused. -/
theorem test_witness_UnloadHidesMappingRegisters :
    execAll [.unload, .load] { l6 with versionOk := true } =
        .next (reply (.status .ok) (initialise (reply (.status .ok) u6))) ∧
      execAll [.unload, .mrd 0] l6 = .refused .notActive := ⟨rfl, rfl⟩

theorem test_witness_PowerAndResetEventsKeepState : l6.phase = .active := by decide

/-- A run after LOAD with a written half and a written byte. -/
theorem test_witness_ReadsSeeTheMostRecentWrite :
    exec .load u6 = .next (reply (.status .ok) (initialise u6)) ∧ u6.versionOk = true ∧
      Instr.unload ∉ [Instr.iowFC 0 0x01, .mwr 0xC000 0xAB] ∧
      execAll [.iowFC 0 0x01, .mwr 0xC000 0xAB] (reply (.status .ok) (initialise u6)) =
        .next (memWrite 0x004000 0xAB (setMapHalf 3 .low 0x01 (reply (.status .ok) (initialise u6)))) ∧
      mostRecentByte 0x004000 MapFile.zero [.iowFC 0 0x01, .mwr 0xC000 0xAB] = some 0xAB ∧
      mostRecentHalf 3 .low [.iowFC 0 0x01, .mwr 0xC000 0xAB] = some 0x01 := ⟨rfl, rfl, by decide, rfl, by decide, by decide⟩

theorem test_witness_StepRefinesBlockSignals :
    (l6w 0x01C000AB).input = [⟨0x01C000AB, true⟩] ∧
      step (l6w 0x01C000AB) = .next { l6 with versionOk := true, store := [(0x010000, 0xAB)] } ∧
      (regFileIn 0x01C000AB true).init = false ∧ resultByte 0x01C000AB 0 0 = none ∧ kindOf 0x01C000AB ≠ 0b110#3 ∧
      resultByte 0x00C00000 0x11 0x22 = some 0x22 ∧ resultByte 0x0300F800 0x11 0x22 = some 0x11 ∧
      resultByte 0x03000000 0x11 0x22 = some 0xFF := ⟨rfl, rfl, by decide, by decide, by decide, by decide, by decide, by decide⟩

end Sys2Proof.Tests
end

/-! Proofs of the family 10_state.md: the phase (R20), the queue of transactions (R22), the segment number of a mapping
register (R18) and its two halves (R17, R19). First the laws they rest on, then the five statements. -/

section
/-! ### The port decoder's two paths -/

namespace Sys2Proof.Machine

@[simp] theorem decodePort_ioAddr (pm : PortMap) (pHi port : Byte) : decodePort pm (ioAddr pHi port) = pm port := by
  simp [decodePort]

theorem ioWrite_of_decodePort {pm : PortMap} {p : IoAddr} {q : Page} {h : Half} (hp : decodePort pm p = some (q, h))
    (d : Byte) (s : State) : ioWrite pm p d s = setMapHalf q h d s := by
  simp [ioWrite, hp]

theorem ioRead_of_decodePort {pm : PortMap} {p : IoAddr} {q : Page} {h : Half} (hp : decodePort pm p = some (q, h))
    (s : State) : ioRead pm p s = mapHalf q h s := by
  simp [ioRead, hp]

@[simp] theorem ioWrite_phase (pm : PortMap) (p : IoAddr) (d : Byte) (s : State) :
    (ioWrite pm p d s).phase = s.phase := by
  rcases ioWrite_cases pm p d s with ⟨-, hw⟩ | ⟨q, h, -, hw⟩ <;> simp [hw]

/-- The read-back path undoes the write path at a port the map knows, since both use the same map (R68). -/
theorem ioRead_ioWrite {pm : PortMap} {p : IoAddr} (hp : decodePort pm p ≠ none) (d : Byte) (s : State) :
    ioRead pm p (ioWrite pm p d s) = d := by
  obtain ⟨⟨q, h⟩, hqh⟩ := Option.ne_none_iff_exists'.1 hp
  rw [ioWrite_of_decodePort hqh, ioRead_of_decodePort hqh, mapHalf_setMapHalf, if_pos ⟨rfl, rfl⟩]

/-- The table of R68 has a row for each of the eight recognised ports. -/
theorem decodePort_of_recognised {p : IoAddr} (h : recognised p) : decodePort portMap p ≠ none := by
  rw [decodePort]
  rcases port_cases h with hp | hp | hp | hp | hp | hp | hp | hp <;> rw [hp] <;> decide

/-- An I/O write's effect on the registers at a port whose row of the table is known. -/
theorem ioWrite_ioAddr_map {port : Byte} {q : Page} {h : Half} (hp : portMap port = some (q, h)) (pHi d : Byte)
    (s : State) : (ioWrite portMap (ioAddr pHi port) d s).map = s.map.set q (withHalf h d (s.map.get q)) := by
  rw [ioWrite_of_decodePort ((decodePort_ioAddr ..).trans hp), setMapHalf_map]

end Sys2Proof.Machine
end

section
/-! ### What a transaction leaves of the phase, the registers and the host's inputs -/

namespace Sys2Proof.Machine

variable {i : Instr} {s t : State}

/-- This hardware's RST and PWRUP change nothing (R96, R98; decision D10). -/
@[simp] theorem powerOrReset_resetClearsMap (s : State) : powerOrReset resetClearsMap s = s := powerOrReset_false s

theorem exec_notActive (hs : s.phase = .unloaded) (hi : i ≠ .load) : exec i s = .refused .notActive := by
  cases i with
  | load => contradiction
  | _ => exact whenActive_unloaded hs _

theorem exec_phase (hl : i ≠ .load) (hu : i ≠ .unload) (h : exec i s = .next t) : t.phase = s.phase := by
  cases i with
  | load => contradiction
  | unload => contradiction
  | _ =>
    obtain ⟨-, ht⟩ := whenActive_next h
    cases ht
    simp

theorem exec_load_phase (h : exec .load s = .next t) : t.phase = if s.versionOk then .active else .unloaded := by
  obtain ⟨hs, ⟨hv, rfl⟩ | ⟨hv, rfl⟩⟩ := execLoad_next h
  · simp [hv]
  · simp [hv, hs]

theorem exec_unload_phase (h : exec .unload s = .next t) : t.phase = .unloaded := by
  obtain ⟨-, ht⟩ := whenActive_next h
  cases ht
  simp

theorem mapAfter_of_halfWritten_none (m : MapFile) (h : halfWritten i = none) : mapAfter m i = m := by
  simp [mapAfter, h]

theorem mapAfter_of_halfWritten {p : Page} {h : Half} {d : Byte} (m : MapFile)
    (hw : halfWritten i = some (p, h, d)) : mapAfter m i = m.set p (withHalf h d (m.get p)) := by
  simp [mapAfter, hw]

/-- The registers after any transaction but LOAD are those of the rules' table (R19, R69 to R77). -/
theorem exec_map (hl : i ≠ .load) (h : exec i s = .next t) : t.map = mapAfter s.map i := by
  cases i with
  | load => contradiction
  | iowF8 | iowF9 | iowFA | iowFB | iowFC | iowFD | iowFE | iowFF =>
    obtain ⟨-, ht⟩ := whenActive_next h
    cases ht
    exact ioWrite_ioAddr_map rfl ..
  | _ =>
    obtain ⟨-, ht⟩ := whenActive_next h
    cases ht
    simp [mapAfter, halfWritten]

/-- An IOW to a recognised port sets its half and leaves every other half (R19). -/
theorem exec_mapHalf {p : Page} {h : Half} {d : Byte} (hw : halfWritten i = some (p, h, d)) (hst : exec i s = .next t)
    (q : Page) (g : Half) : mapHalf q g t = if q = p ∧ g = h then d else mapHalf q g s := by
  have hl : i ≠ .load := by rintro rfl; cases hw
  have ht : t.map = (setMapHalf p h d s).map := (exec_map hl hst).trans (mapAfter_of_halfWritten _ hw)
  rw [mapHalf, ht]
  exact mapHalf_setMapHalf p q h g d s

/-- A LOAD that passes its check leaves four zero registers (R94, R116). -/
theorem exec_load_map_get (hv : s.versionOk = true) (h : exec .load s = .next t) (p : Page) :
    t.map.get p = 0x0000#16 := by
  obtain ⟨-, ⟨-, rfl⟩ | ⟨hf, -⟩⟩ := execLoad_next h
  · simp
  · simp [hv] at hf

theorem ActiveEffect.host_inputs (h : ActiveEffect s t) : t.input = s.input ∧ t.versionOk = s.versionOk := by
  rcases h with rfl | ⟨b, rfl⟩ | ⟨p, g, d, rfl⟩ | ⟨o, d, rfl⟩ | rfl <;> simp

theorem exec_host_inputs (h : exec i s = .next t) : t.input = s.input ∧ t.versionOk = s.versionOk := by
  rcases exec_next_cases h with ⟨-, -, he⟩ | ⟨-, -, ⟨-, rfl⟩ | ⟨-, rfl⟩⟩
  · exact he.host_inputs
  · simp
  · simp

theorem step_input (h : step s = .next t) : t.input = s.input.tail := by
  rcases step_next_cases h with ⟨hs, rfl⟩ | ⟨r, rest, i, hs, -, hi⟩
  · simp [hs]
  · rw [(exec_host_inputs hi).1, accept_input, hs, List.tail_cons]

end Sys2Proof.Machine
end

section
/-! ### The offset as segment number beside page offset -/

namespace Sys2Proof.Machine

/-- R61 as arithmetic: the shift and the OR on 30 bits lose nothing, so the raw value is a sum. -/
theorem shift_or_toNat (v : MapReg) (a : CpuAddr) :
    (v.setWidth 30 <<< 14 ||| (a &&& 0x3FFF#16).setWidth 30).toNat = v.toNat * 2 ^ 14 + a.toNat % 2 ^ 14 := by
  have hv : v.toNat <<< 14 < 2 ^ 30 := by rw [Nat.shiftLeft_eq]; omega
  have hlow : (a &&& 0x3FFF#16).toNat = a.toNat % 2 ^ 14 := Nat.and_two_pow_sub_one_eq_mod _ 14
  have hlt : a.toNat % 2 ^ 14 < 2 ^ 14 := Nat.mod_lt _ (by decide)
  rw [BitVec.toNat_or, BitVec.toNat_shiftLeft, BitVec.toNat_setWidth_of_le (by decide),
    BitVec.toNat_setWidth_of_le (by decide), hlow, Nat.mod_eq_of_lt hv, ← Nat.shiftLeft_add_eq_or_of_lt hlt,
    Nat.shiftLeft_eq]

/-- R61 and R64: the mask keeps the low 24 bits of the raw value, ten bits of segment above the page offset. -/
theorem shiftAndMask_toNat (v : MapReg) (a : CpuAddr) :
    (shiftAndMask v a).toNat = v.toNat % 1024 * 2 ^ 14 + a.toNat % 2 ^ 14 := by
  have mask (n : Nat) : n &&& 0xFFFFFF = n % 2 ^ 24 := Nat.and_two_pow_sub_one_eq_mod n 24
  simp only [shiftAndMask, BitVec.toNat_setWidth, BitVec.toNat_and, shift_or_toNat, BitVec.toNat_ofNat,
    Nat.reduceMod, Nat.reducePow, mask]
  omega

/-- R66: the segment counts modulo 1024, whatever the address. -/
theorem shiftAndMask_eq_iff (v w : MapReg) (a : CpuAddr) :
    shiftAndMask v a = shiftAndMask w a ↔ v.toNat % 1024 = w.toNat % 1024 := by
  rw [← BitVec.toNat_inj, shiftAndMask_toNat, shiftAndMask_toNat]
  omega

theorem translateAddr_set_pageOf (m : MapFile) (v : MapReg) (a : CpuAddr) :
    translateAddr (m.set (pageOf a) v) a = shiftAndMask v a := by
  simp [translateAddr, pageSelect]

/-- Every page has an address, its first one (R31). -/
theorem exists_pageOf_eq (p : Page) : ∃ a : CpuAddr, pageOf a = p :=
  ⟨BitVec.ofFin p ++ 0#14, by revert p; decide⟩

end Sys2Proof.Machine
end

section
/-! ### The statements of the family -/

namespace Sys2Proof.Machine

/-- Settles O12: a case split on the transaction, with LOAD and UNLOAD alone touching the phase. -/
theorem phaseFollowsLoadAndUnload : Obligations.PhaseFollowsLoadAndUnload := by
  refine ⟨rfl, fun i s t h => ⟨?_, ?_, ?_⟩, fun i s => exec_notActive⟩
  · rintro rfl
    exact exec_load_phase h
  · rintro rfl
    exact exec_unload_phase h
  · exact fun hl hu => exec_phase hl hu h

/-- Settles O15: the step alone takes from the queue, and no transaction touches the host's inputs. -/
theorem stepTakesOldestTransaction : Obligations.StepTakesOldestTransaction :=
  ⟨fun _ _ => step_input, fun _ _ _ => exec_host_inputs⟩

/-- Settles O22: at every address of the page the offset is the segment modulo 1024 beside the page offset, and the page
has an address. -/
theorem segmentNumbersWrapModulo1024 : Obligations.SegmentNumbersWrapModulo1024 := by
  intro m p v w
  constructor
  · intro h
    obtain ⟨a, rfl⟩ := exists_pageOf_eq p
    simpa only [translateAddr_set_pageOf, shiftAndMask_eq_iff] using h a rfl
  · rintro h a rfl
    simpa only [translateAddr_set_pageOf, shiftAndMask_eq_iff] using h

/-- Settles O39: both paths decode the port with one map, and the write keeps the phase that the read asks for. -/
theorem portRoundTrip : Obligations.PortRoundTrip := by
  refine ⟨fun s p d hs hp => ?_, fun pm s p d hp => ioRead_ioWrite hp d s⟩
  refine ⟨ioWrite portMap p d s, by rw [exec_decodeIow, whenActive_active hs], ?_⟩
  have ht : (ioWrite portMap p d s).phase = .active := by rw [ioWrite_phase, hs]
  rw [exec_decodeIor, whenActive_active ht, ioRead_ioWrite (decodePort_of_recognised hp)]
  rfl

/-- Settles O40: the registers after a transaction are those of the rules' table, read half by half. -/
theorem onlyIowWritesMappingRegisters : Obligations.OnlyIowWritesMappingRegisters := by
  intro i s t hst
  refine ⟨fun hl hw => ?_, fun p h d hw => ?_, ?_⟩
  · rw [exec_map hl hst, mapAfter_of_halfWritten_none _ hw]
  · have ht : ∀ q g, halfOf g (t.map.get q) = if q = p ∧ g = h then d else halfOf g (s.map.get q) := exec_mapHalf hw hst
    refine ⟨by rw [ht, if_pos ⟨rfl, rfl⟩], fun q g hne => ?_⟩
    rw [ht, if_neg (by simpa using hne)]
  · rintro rfl hv
    exact exec_load_map_get hv hst

end Sys2Proof.Machine
end

/-! Proofs of the family 20_memory.md: pages, aliases and page boundaries (R31, R35, R44), what reads and writes the store
(R37, R40), and the order of transactions (R36, R40, R106). First the laws they rest on, then the seven statements. -/

section
/-! ### The page and the offset of a CPU address -/

namespace Sys2Proof.Machine

/-- R31: the page is the address divided by the page size. -/
theorem pageOf_val (a : CpuAddr) : (pageOf a).val = a.toNat / 2 ^ 14 := by
  have ha : a.toNat / 2 ^ 14 < 4 := by omega
  simpa [pageOf, Nat.shiftRight_eq_div_pow] using ha

theorem pageSelect_of_div_eq {a : CpuAddr} {p : Page} (h : a.toNat / 2 ^ 14 = p.val) (m : MapFile) :
    pageSelect m a = m.get p := by
  rw [pageSelect, Fin.ext ((pageOf_val a).trans h)]

/-- R63 as arithmetic: the selected segment modulo 1024 above the offset in the page. -/
theorem translateAddr_toNat (m : MapFile) (a : CpuAddr) :
    (translateAddr m a).toNat = (pageSelect m a).toNat % 1024 * 2 ^ 14 + a.toNat % 2 ^ 14 :=
  shiftAndMask_toNat _ _

theorem translateAddr_eq_iff (m : MapFile) (a b : CpuAddr) : translateAddr m a = translateAddr m b ↔
    (pageSelect m a).toNat % 1024 = (pageSelect m b).toNat % 1024 ∧ a.toNat % 16384 = b.toNat % 16384 := by
  rw [← BitVec.toNat_inj, translateAddr_toNat, translateAddr_toNat]
  omega

end Sys2Proof.Machine
end

section
/-! ### The memory transactions of an ACTIVE block -/

namespace Sys2Proof.Machine

variable {s : State}

theorem exec_mrd_active (hs : s.phase = .active) (a : CpuAddr) :
    exec (.mrd a) s = .next (reply (.byte (memRead (translateAddr s.map a) s)) s) :=
  whenActive_active hs _

theorem exec_mpk_active (hs : s.phase = .active) (a : CpuAddr) :
    exec (.mpk a) s = .next (reply (.byte (memRead (translateAddr s.map a) s)) s) :=
  whenActive_active hs _

theorem exec_mwr_active (hs : s.phase = .active) (a : CpuAddr) (d : Byte) :
    exec (.mwr a d) s = .next (memWrite (translateAddr s.map a) d s) :=
  whenActive_active hs _

end Sys2Proof.Machine
end

section
/-! ### What a transaction leaves of the store -/

namespace Sys2Proof.Machine

variable {i : Instr} {s t : State}

theorem byteStored_eq_some {m : MapFile} {o : Offset} {d : Byte} (h : byteStored m i = some (o, d)) :
    ∃ a, i = .mwr a d ∧ o = translateAddr m a := by
  cases i with
  | mwr a e =>
    cases h
    exact ⟨a, rfl, rfl⟩
  | _ => cases h

@[simp] theorem memRead_ioWrite (o : Offset) (pm : PortMap) (p : IoAddr) (d : Byte) (s : State) :
    memRead o (ioWrite pm p d s) = memRead o s := by
  rcases ioWrite_cases pm p d s with ⟨-, hw⟩ | ⟨q, h, -, hw⟩ <;> simp [hw]

/-- An MWR writes the byte at its translated offset and no other (R90). -/
theorem exec_memRead_of_byteStored {o' : Offset} {d : Byte} (hb : byteStored s.map i = some (o', d))
    (h : exec i s = .next t) (o : Offset) : memRead o t = if o = o' then d else memRead o s := by
  obtain ⟨a, rfl, rfl⟩ := byteStored_eq_some hb
  obtain ⟨-, ht⟩ := whenActive_next h
  cases ht
  exact memRead_memWrite ..

/-- A transaction that is neither MWR nor LOAD leaves every byte of the store (R37). -/
theorem exec_memRead_of_byteStored_none {m : MapFile} (hb : byteStored m i = none) (hl : i ≠ .load)
    (h : exec i s = .next t) (o : Offset) : memRead o t = memRead o s := by
  cases i with
  | load => contradiction
  | mwr a d => cases hb
  | _ =>
    obtain ⟨-, ht⟩ := whenActive_next h
    cases ht
    simp

end Sys2Proof.Machine
end

section
/-! ### What a read returns -/

namespace Sys2Proof.Machine

/-- By the rules' tables (R19, R37, R115), what returns a byte writes nothing and is no LOAD or UNLOAD. -/
theorem writes_nothing_of_replyKind_byte {i : Instr} (hk : replyKind i = .byte) (m : MapFile) :
    halfWritten i = none ∧ byteStored m i = none ∧ i ≠ .load ∧ i ≠ .unload := by
  cases i with
  | mrd | mpk | iop | iorF8 | iorF9 | iorFA | iorFB | iorFC | iorFD | iorFE | iorFF | iorUnmapped =>
    exact ⟨rfl, rfl, by simp, by simp⟩
  | _ => cases hk

theorem ioRead_congr {s u : State} (hm : u.map = s.map) (pm : PortMap) (p : IoAddr) : ioRead pm p u = ioRead pm p s := by
  simp only [ioRead, mapHalf, hm]

/-- A read or peek returns a byte that only the registers and the bytes of the store determine (R37). -/
theorem exec_byte_congr {i : Instr} {s u : State} (hk : replyKind i = .byte) (hs : s.phase = .active)
    (hu : u.phase = .active) (hm : u.map = s.map) (hr : ∀ o, memRead o u = memRead o s) :
    ∃ b, exec i s = .next (reply (.byte b) s) ∧ exec i u = .next (reply (.byte b) u) := by
  cases i with
  | mrd a | mpk a =>
    refine ⟨_, whenActive_active hs _, (whenActive_active hu _).trans ?_⟩
    rw [hm, hr]
  | iorF8 | iorF9 | iorFA | iorFB | iorFC | iorFD | iorFE | iorFF | iop =>
    refine ⟨_, whenActive_active hs _, (whenActive_active hu _).trans ?_⟩
    rw [ioRead_congr hm]
  | iorUnmapped p => exact ⟨_, whenActive_active hs _, whenActive_active hu _⟩
  | _ => cases hk

end Sys2Proof.Machine
end

section
/-! ### Runs within one session -/

namespace Sys2Proof.Machine

/-- Transactions that complete one after another, none of them a LOAD or an UNLOAD. -/
inductive SessionRun : List Instr → State → State → Prop
  | nil (s : State) : SessionRun [] s s
  | cons {i : Instr} {is : List Instr} {s s' t : State} (hl : i ≠ .load) (hu : i ≠ .unload)
      (hi : exec i s = .next s') (his : SessionRun is s' t) : SessionRun (i :: is) s t

/-- A LOAD is refused while ACTIVE (R94), so a run of an ACTIVE block that completes without UNLOAD has no LOAD. -/
theorem sessionRun_of_execAll {is : List Instr} {s t : State} (hs : s.phase = .active) (hu : Instr.unload ∉ is)
    (h : execAll is s = .next t) : SessionRun is s t := by
  induction is generalizing s with
  | nil =>
    cases h
    exact .nil _
  | cons i is ih =>
    simp only [List.mem_cons, not_or] at hu
    obtain ⟨hne, hu⟩ := hu
    rw [execAll] at h
    split at h
    next s' hi =>
      have hl : i ≠ .load := by
        rintro rfl
        have := (execLoad_next hi).1
        simp [hs] at this
      exact .cons hl (Ne.symm hne) hi (ih ((exec_phase hl (Ne.symm hne) hi).trans hs) hu h)
    all_goals cases h

variable {is : List Instr} {s t : State}

theorem SessionRun.phase_eq (h : SessionRun is s t) : t.phase = s.phase := by
  induction h with
  | nil => rfl
  | cons hl hu hi _ ih => exact ih.trans (exec_phase hl hu hi)

theorem SessionRun.map_eq (h : SessionRun is s t) (hw : ∀ j ∈ is, halfWritten j = none) : t.map = s.map := by
  induction h with
  | nil => rfl
  | cons hl _ hi _ ih =>
    rw [List.forall_mem_cons] at hw
    rw [ih hw.2, exec_map hl hi, mapAfter_of_halfWritten_none _ hw.1]

theorem SessionRun.memRead_eq {m : MapFile} (h : SessionRun is s t) (hb : ∀ j ∈ is, byteStored m j = none)
    (o : Offset) : memRead o t = memRead o s := by
  induction h with
  | nil => rfl
  | cons hl _ hi _ ih =>
    rw [List.forall_mem_cons] at hb
    rw [ih hb.2, exec_memRead_of_byteStored_none hb.1 hl hi]

end Sys2Proof.Machine
end

section
/-! ### The most recent write -/

namespace Sys2Proof.Machine

/-- The byte a transaction stores at `o`, if it stores there; `m` is what the registers hold. -/
def storedAt (o : Offset) (m : MapFile) (i : Instr) : Option Byte :=
  (byteStored m i).bind fun w => if w.1 = o then some w.2 else none

/-- The byte a transaction writes to a half, if it writes that half. -/
def writtenTo (p : Page) (h : Half) (i : Instr) : Option Byte :=
  (halfWritten i).bind fun w => if w.1 = p ∧ w.2.1 = h then some w.2.2 else none

/-- The most recent write is one of the later ones, or else the first transaction's. -/
theorem mostRecentByte_cons (o : Offset) (m : MapFile) (i : Instr) (is : List Instr) :
    mostRecentByte o m (i :: is) = (mostRecentByte o (mapAfter m i) is).or (storedAt o m i) := by
  rw [mostRecentByte, storedAt]
  cases mostRecentByte o (mapAfter m i) is with
  | some b => rfl
  | none => cases byteStored m i <;> rfl

theorem mostRecentHalf_cons (p : Page) (h : Half) (i : Instr) (is : List Instr) :
    mostRecentHalf p h (i :: is) = (mostRecentHalf p h is).or (writtenTo p h i) := by
  rw [mostRecentHalf, writtenTo]
  cases mostRecentHalf p h is with
  | some b => rfl
  | none => cases halfWritten i <;> rfl

variable {i : Instr} {is : List Instr} {s t : State}

theorem exec_memRead (hl : i ≠ .load) (h : exec i s = .next t) (o : Offset) :
    memRead o t = (storedAt o s.map i).getD (memRead o s) := by
  rcases hb : byteStored s.map i with _ | ⟨o', d⟩
  · simp [storedAt, hb, exec_memRead_of_byteStored_none hb hl h]
  · rw [exec_memRead_of_byteStored hb h]
    by_cases ho : o = o'
    · simp [storedAt, hb, ho]
    · simp [storedAt, hb, ho, Ne.symm ho]

theorem exec_mapHalf_eq (hl : i ≠ .load) (hst : exec i s = .next t) (p : Page) (h : Half) :
    mapHalf p h t = (writtenTo p h i).getD (mapHalf p h s) := by
  rcases hw : halfWritten i with _ | ⟨q, g, d⟩
  · simp [writtenTo, hw, mapHalf, exec_map hl hst, mapAfter_of_halfWritten_none]
  · rw [exec_mapHalf hw hst]
    by_cases hq : p = q ∧ h = g
    · simp [writtenTo, hw, hq]
    · have hq' : ¬ (q = p ∧ g = h) := fun ⟨e₁, e₂⟩ => hq ⟨e₁.symm, e₂.symm⟩
      simp [writtenTo, hw, hq, hq']

/-- R40 for the store: after a run each byte is that of the most recent MWR that translated to its offset. -/
theorem SessionRun.memRead_mostRecent (h : SessionRun is s t) (o : Offset) :
    memRead o t = (mostRecentByte o s.map is).getD (memRead o s) := by
  induction h with
  | nil => rfl
  | cons hl _ hi _ ih => rw [ih, mostRecentByte_cons, Option.getD_or, exec_map hl hi, exec_memRead hl hi]

/-- R40 for the registers: after a run each half is the byte of the most recent IOW to it. -/
theorem SessionRun.mapHalf_mostRecent (hr : SessionRun is s t) (p : Page) (h : Half) :
    mapHalf p h t = (mostRecentHalf p h is).getD (mapHalf p h s) := by
  induction hr with
  | nil => rfl
  | cons hl _ hi _ ih => rw [ih, mostRecentHalf_cons, Option.getD_or, exec_mapHalf_eq hl hi]

end Sys2Proof.Machine
end

section
/-! ### A transaction delivered later -/

namespace Sys2Proof.Machine

/-- An outcome with its next state, if there is one, changed by `f`. -/
def mapNext (f : State → State) : Host.Outcome State Fault Refusal → Host.Outcome State Fault Refusal
  | .next t => .next (f t)
  | .fault q => .fault q
  | .refused q => .refused q

theorem ioWrite_deliver (pm : PortMap) (p : IoAddr) (d : Byte) (r : Request) (s : State) :
    ioWrite pm p d (deliver r s) = deliver r (ioWrite pm p d s) := by
  rcases hp : decodePort pm p with _ | ⟨q, h⟩
  · simp only [ioWrite, hp]
  · simp only [ioWrite_of_decodePort hp]
    rfl

theorem whenActive_deliver {r : Request} {s u v : State} (h : u = deliver r v) :
    whenActive (deliver r s) (.next u) = mapNext (deliver r) (whenActive s (.next v)) := by
  subst h
  cases hs : s.phase with
  | active => rw [whenActive_active (by simpa using hs), whenActive_active hs]; rfl
  | unloaded => rw [whenActive_unloaded (by simpa using hs), whenActive_unloaded hs]; rfl

theorem execLoad_deliver (r : Request) (s : State) : execLoad (deliver r s) = mapNext (deliver r) (execLoad s) := by
  unfold execLoad
  rw [deliver_phase, deliver_versionOk]
  split
  · rfl
  · split <;> rfl

/-- No transaction sees the queue behind it (R40, R106). -/
theorem exec_deliver (i : Instr) (r : Request) (s : State) :
    exec i (deliver r s) = mapNext (deliver r) (exec i s) := by
  cases i with
  | load => exact execLoad_deliver r s
  | iowF8 | iowF9 | iowFA | iowFB | iowFC | iowFD | iowFE | iowFF => exact whenActive_deliver (ioWrite_deliver ..)
  | _ => exact whenActive_deliver rfl

variable {s : State} {r : Request} {rest : List Request}

theorem step_of_decode_ok {i : Instr} (hs : s.input = r :: rest) (hd : decode r.word = .ok i) :
    step s = exec i (accept r rest s) := by
  simp only [step, hs, hd]

theorem step_of_decode_error {e : DecodeError} (hs : s.input = r :: rest) (hd : decode r.word = .error e) :
    step s = .refused .reservedEncoding := by
  simp only [step, hs, hd]

theorem step_deliver (hs : s.input ≠ []) (r : Request) : step (deliver r s) = mapNext (deliver r) (step s) := by
  obtain ⟨r₀, rest, hs⟩ := List.exists_cons_of_ne_nil hs
  have hs' : (deliver r s).input = r₀ :: (rest ++ [r]) := by simp [hs]
  cases hd : decode r₀.word with
  | ok i =>
    rw [step_of_decode_ok hs hd, step_of_decode_ok hs' hd]
    exact exec_deliver i r (accept r₀ rest s)
  | error e =>
    rw [step_of_decode_error hs hd, step_of_decode_error hs' hd]
    rfl

end Sys2Proof.Machine
end

section
/-! ### The statements of the family -/

namespace Sys2Proof.Machine

/-- Settles O16: delivering changes only the end of the queue, which no transaction sees. -/
theorem laterDeliveryDoesNotMatter : Obligations.LaterDeliveryDoesNotMatter := by
  intro s r hs
  rw [step_deliver hs]
  refine ⟨fun t h => ?_, fun q h => ?_⟩ <;> rw [h] <;> rfl

/-- Settles O19: the page is the address divided by the page size. -/
theorem pageSelectByAddressRange : Obligations.PageSelectByAddressRange := by
  intro m a
  have page (p : Page) (h : a.toNat / 2 ^ 14 = p.val) : pageSelect m a = m.get p := pageSelect_of_div_eq h m
  refine ⟨fun h => page 0 ?_, fun h h' => page 1 ?_, fun h h' => page 2 ?_, fun h => page 3 ?_⟩ <;>
    omega

/-- Settles O23: the offset is the segment modulo 1024 beside the offset in the page, and an MRD reads the store at the
offset that the MWR wrote. -/
theorem aliasesShareTheByte : Obligations.AliasesShareTheByte := by
  refine ⟨translateAddr_eq_iff, fun s a b d hs hab => ⟨_, exec_mwr_active hs a d, ?_⟩⟩
  rw [exec_mrd_active (by simpa using hs), memWrite_map, hab, memRead_memWrite, if_pos rfl]
  rfl

/-- Settles O24: the next address is the first of the next page, so its offset is that page's segment base. -/
theorem offsetsAcrossPageBoundary : Obligations.OffsetsAcrossPageBoundary := by
  intro m a hlast hpage
  have hnext : (a + 1#16).toNat = a.toNat + 1 := by bv_omega
  rw [← BitVec.toNat_inj, BitVec.toNat_add, translateAddr_toNat, translateAddr_toNat, hnext]
  simp only [BitVec.toNat_ofNat]
  omega

/-- Settles O29: the read and what runs after it leave the registers and every byte of the store, which alone determine
what the read returns. -/
theorem repeatedReadsReturnTheSame : Obligations.RepeatedReadsReturnTheSame := by
  intro i is s t u hk hst hj hrun
  have hw : ∀ j ∈ i :: is, halfWritten j = none ∧ byteStored s.map j = none ∧ j ≠ .load ∧ j ≠ .unload :=
    List.forall_mem_cons.2 ⟨writes_nothing_of_replyKind_byte hk s.map, hj⟩
  have hunload : Instr.unload ∉ i :: is := fun hmem => by
    obtain ⟨-, -, -, hne⟩ := hw _ hmem
    exact hne rfl
  have hs : s.phase = .active := by
    rcases exec_next_cases hst with ⟨hs, -⟩ | ⟨-, rfl, -⟩
    · exact hs
    · cases hk
  have hr : SessionRun (i :: is) s u := sessionRun_of_execAll hs hunload (by simpa only [execAll, hst] using hrun)
  obtain ⟨b, hb, hu⟩ := exec_byte_congr hk hs (hr.phase_eq.trans hs) (hr.map_eq fun j h => (hw j h).1)
    (hr.memRead_eq fun j h => (hw j h).2.1)
  cases hb.symm.trans hst
  exact ⟨b, rfl, hu⟩

/-- Settles O30: the transaction either is an MWR, with the byte its table names, or leaves every byte. -/
theorem onlyMwrWritesTheStore : Obligations.OnlyMwrWritesTheStore := by
  intro i s t o h hl
  rcases hb : byteStored s.map i with _ | ⟨o', d⟩
  · exact exec_memRead_of_byteStored_none hb hl h o
  · exact exec_memRead_of_byteStored hb h o

/-- Settles O50: by induction on the run, from the zero registers and the fresh draw that LOAD leaves. -/
theorem readsSeeTheMostRecentWrite : Obligations.ReadsSeeTheMostRecentWrite := by
  intro is s₀ s t hload hv hu hrun
  obtain ⟨-, ⟨-, rfl⟩ | ⟨hf, -⟩⟩ := execLoad_next hload
  · have hr := sessionRun_of_execAll rfl hu hrun
    have ht : t.phase = .active := hr.phase_eq
    refine ⟨fun a => ?_, fun p h => ?_⟩
    · have hmem := hr.memRead_mostRecent (translateAddr t.map a)
      rw [exec_mrd_active ht, exec_mpk_active ht, hmem]
      exact ⟨rfl, rfl⟩
    · have hzero : mapHalf p h (reply (.status .ok) (initialise s₀)) = 0x00#8 := by
        cases h <;> simp [mapHalf, halfOf]
      exact hzero ▸ hr.mapHalf_mostRecent p h
  · simp [hv] at hf

end Sys2Proof.Machine
end

/-! Proofs of the family 30_encoding.md: the word of a transaction, its decode and its row (R47 to R60), the port decoder's
formula (R53), the pseudo-instructions (R58) and the block's signals (R46). First the laws they rest on, then the eleven
statements. -/

section
/-! ### What the decoder answers -/

namespace Sys2Proof

open Sys2Proof.Machine

@[simp] theorem decode_assemble_ior (p : IoAddr) (d : Byte) : decode (assemble 0b011#3 p d) = .ok (decodeIor p) := by
  simp [decode]

@[simp] theorem decode_assemble_iow (p : IoAddr) (d : Byte) : decode (assemble 0b100#3 p d) = .ok (decodeIow p d) := by
  simp [decode]

@[simp] theorem decode_assemble_iop (p : IoAddr) (d : Byte) : decode (assemble 0b101#3 p d) = .ok (.iop p) := by
  simp [decode]

@[simp] theorem decode_assemble_event (e : BitVec 3) (d : Byte) :
    decode (assemble 0b110#3 (eventAddr e) d) = decodeEvent e := by
  simp [decode]

/-- The transaction that an unreserved word names, by its kind and event code (R48, R49, R59). -/
inductive Decodes (t : TWord) : Instr → Prop
  | mrd (hk : kindOf t = 0b000#3) : Decodes t (.mrd (addrOf t))
  | mwr (hk : kindOf t = 0b001#3) : Decodes t (.mwr (addrOf t) (dataOf t))
  | mpk (hk : kindOf t = 0b010#3) : Decodes t (.mpk (addrOf t))
  | ior (hk : kindOf t = 0b011#3) : Decodes t (decodeIor (addrOf t))
  | iow (hk : kindOf t = 0b100#3) : Decodes t (decodeIow (addrOf t) (dataOf t))
  | iop (hk : kindOf t = 0b101#3) : Decodes t (.iop (addrOf t))
  | load (hk : kindOf t = 0b110#3) (he : eventOf t = 0b000#3) : Decodes t .load
  | unload (hk : kindOf t = 0b110#3) (he : eventOf t = 0b001#3) : Decodes t .unload
  | pwrup (hk : kindOf t = 0b110#3) (he : eventOf t = 0b010#3) : Decodes t .pwrup
  | pwrdn (hk : kindOf t = 0b110#3) (he : eventOf t = 0b011#3) : Decodes t .pwrdn
  | rst (hk : kindOf t = 0b110#3) (he : eventOf t = 0b100#3) : Decodes t .rst
  | idle (hk : kindOf t = 0b110#3) (he : eventOf t = 0b101#3) : Decodes t .idle

variable {t u : TWord} {i : Instr}

theorem decodes_of_decodeEvent (hk : kindOf t = 0b110#3) (h : decodeEvent (eventOf t) = .ok i) : Decodes t i := by
  unfold decodeEvent at h
  split_ifs at h with h₀ h₁ h₂ h₃ h₄ h₅ <;> cases h
  · exact .load hk h₀
  · exact .unload hk h₁
  · exact .pwrup hk h₂
  · exact .pwrdn hk h₃
  · exact .rst hk h₄
  · exact .idle hk h₅

theorem rsvOf_and_decodes_of_decode (h : decode t = .ok i) : rsvOf t = 0#5 ∧ Decodes t i := by
  unfold decode at h
  split_ifs at h with hr h₀ h₁ h₂ h₃ h₄ h₅ h₆
  all_goals refine ⟨not_ne_iff.1 hr, ?_⟩
  · cases h; exact .mrd h₀
  · cases h; exact .mwr h₁
  · cases h; exact .mpk h₂
  · cases h; exact .ior h₃
  · cases h; exact .iow h₄
  · cases h; exact .iop h₅
  · exact decodes_of_decodeEvent h₆ h

theorem decode_of_decodes (hr : rsvOf t = 0#5) (h : Decodes t i) : decode t = .ok i := by
  cases h with
  | mrd hk | mwr hk | mpk hk | ior hk | iow hk | iop hk => simp [decode, hr, hk]
  | load hk he | unload hk he | pwrup hk he | pwrdn hk he | rst hk he | idle hk he =>
    simp [decode, decodeEvent, hr, hk, he]

/-- A word whose reserved bits are clear and that names a transaction is none of R55's. -/
theorem Decodes.not_reservedWord (hr : rsvOf t = 0#5) (h : Decodes t i) : ¬ reservedWord t := by
  cases h with
  | mrd hk | mwr hk | mpk hk | ior hk | iow hk | iop hk => simp [reservedWord, hr, hk]
  | load hk he | unload hk he | pwrup hk he | pwrdn hk he | rst hk he | idle hk he =>
    simp [reservedWord, hr, hk, he]

theorem Decodes.eq_decodeIor (h : Decodes t i) (hk : kindOf t = 0b011#3) : i = decodeIor (addrOf t) := by
  cases h with
  | ior => rfl
  | _ => simp_all

theorem Decodes.eq_decodeIow (h : Decodes t i) (hk : kindOf t = 0b100#3) : i = decodeIow (addrOf t) (dataOf t) := by
  cases h with
  | iow => rfl
  | _ => simp_all

theorem reservedWord_of_decodeEvent (hk : kindOf t = 0b110#3) {e : DecodeError}
    (h : decodeEvent (eventOf t) = .error e) : reservedWord t := by
  refine .inr (.inr ⟨hk, ?_⟩)
  unfold decodeEvent at h
  generalize eventOf t = c at h
  split_ifs at h
  bv_omega

theorem reservedWord_of_decode {e : DecodeError} (h : decode t = .error e) : reservedWord t := by
  unfold decode at h
  split_ifs at h with hr h₀ h₁ h₂ h₃ h₄ h₅ h₆
  · exact .inl hr
  · exact reservedWord_of_decodeEvent h₆ h
  · refine .inr (.inl ?_)
    generalize kindOf t = k at *
    bv_omega

/-- The decoder rejects exactly the words of R55. -/
theorem exists_decode_error_iff : (∃ e, decode t = .error e) ↔ reservedWord t := by
  refine ⟨fun ⟨e, he⟩ => reservedWord_of_decode he, fun h => ?_⟩
  cases hd : decode t with
  | error e => exact ⟨e, rfl⟩
  | ok i =>
    obtain ⟨hr, hi⟩ := rsvOf_and_decodes_of_decode hd
    exact absurd h (hi.not_reservedWord hr)

theorem exists_decode_ok (h : ¬ reservedWord t) : ∃ i, decode t = .ok i := by
  cases hd : decode t with
  | ok i => exact ⟨i, rfl⟩
  | error e => exact absurd (reservedWord_of_decode hd) h

end Sys2Proof
end

section
/-! ### The bits a row cares for -/

namespace Sys2Proof

variable {t u : TWord} {i : Instr}

/-- A mask that takes all of `rsv` and `kind` works on the other two fields one by one. -/
theorem assemble_and (k : BitVec 3) (a ma : BitVec 16) (d md : Byte) :
    assemble k a d &&& (0x1F#5 ++ 0b111#3 ++ ma ++ md) = assemble k (a &&& ma) (d &&& md) := by
  have hk : k &&& 0b111#3 = k := BitVec.and_allOnes
  refine BitVec.and_append.trans ?_
  rw [BitVec.and_append, BitVec.and_append, hk, BitVec.zero_and]
  rfl

theorem and_addrMask (h : rsvOf t = 0#5) : t &&& 0xFFFFFF00#32 = assemble (kindOf t) (addrOf t) 0#8 := by
  have ha : addrOf t &&& 0xFFFF#16 = addrOf t := BitVec.and_allOnes
  have := assemble_and (kindOf t) (addrOf t) 0xFFFF#16 (dataOf t) 0#8
  rwa [assemble_fields h, ha, BitVec.and_zero] at this

theorem and_eventMask (h : rsvOf t = 0#5) :
    t &&& 0xFF000700#32 = assemble (kindOf t) (eventAddr (eventOf t)) 0#8 := by
  have ha : addrOf t &&& 0x0007#16 = eventAddr (eventOf t) := by
    apply BitVec.eq_of_getLsbD_eq; intro i hi
    rw [eventAddr_getLsbD]
    interval_cases i <;> simp [addrOf, eventOf]
  have := assemble_and (kindOf t) (addrOf t) 0x0007#16 (dataOf t) 0#8
  rwa [assemble_fields h, ha, BitVec.and_zero] at this

theorem caredBits_cases (i : Instr) :
    caredBits i = 0xFFFFFFFF#32 ∨ caredBits i = 0xFFFFFF00#32 ∨ caredBits i = 0xFF000700#32 := by
  cases i <;> simp [caredBits]

theorem extractLsb'_eq_of_and_eq {m : TWord} (h : u &&& m = t &&& m) {s l : Nat}
    (hm : m.extractLsb' s l = BitVec.allOnes l) : u.extractLsb' s l = t.extractLsb' s l := by
  simpa [BitVec.extractLsb'_and, hm] using congrArg (·.extractLsb' s l) h

@[simp] theorem caredBits_decodeIow (p : IoAddr) (d : Byte) : caredBits (decodeIow p d) = 0xFFFFFFFF#32 := by
  unfold decodeIow
  split_ifs <;> rfl

@[simp] theorem caredBits_decodeIor (p : IoAddr) : caredBits (decodeIor p) = 0xFFFFFF00#32 := by
  unfold decodeIor
  split_ifs <;> rfl

theorem wellFormed_decodeIow (p : IoAddr) (d : Byte) : WellFormed (decodeIow p d) = true := by
  by_cases hp : recognised p
  · rcases Machine.port_cases hp with h | h | h | h | h | h | h | h <;> simp [decodeIow, h, WellFormed]
  · simp [decodeIow_of_not_recognised hp, WellFormed, hp]

theorem wellFormed_decodeIor (p : IoAddr) : WellFormed (decodeIor p) = true := by
  by_cases hp : recognised p
  · rcases Machine.port_cases hp with h | h | h | h | h | h | h | h <;> simp [decodeIor, h, WellFormed]
  · simp [decodeIor_of_not_recognised hp, WellFormed, hp]

theorem Decodes.wellFormed (h : Decodes t i) : WellFormed i = true := by
  cases h with
  | iow => exact wellFormed_decodeIow ..
  | ior => exact wellFormed_decodeIor _
  | _ => rfl

/-- A word's own encoding is the word with its ignored bits cleared (log 16). -/
theorem Decodes.encode_eq (hr : rsvOf t = 0#5) (h : Decodes t i) : encode i = t &&& caredBits i := by
  have all : t &&& 0xFFFFFFFF#32 = t := BitVec.and_allOnes
  cases h with
  | mrd hk | mpk hk | iop hk => rw [caredBits, and_addrMask hr, hk]; rfl
  | mwr hk => rw [caredBits, all, encode, ← hk, assemble_fields hr]
  | ior hk => rw [encode_decodeIor, caredBits_decodeIor, and_addrMask hr, hk]
  | iow hk => rw [encode_decodeIow, caredBits_decodeIow, all, ← hk, assemble_fields hr]
  | load hk he | unload hk he | pwrup hk he | pwrdn hk he | rst hk he | idle hk he =>
    rw [caredBits, and_eventMask hr, hk, he]; rfl

/-- Every row cares for `rsv`, `kind` and `addr[2:0]`, or for `addr` whole. -/
theorem fields_eq_of_and_caredBits_eq (h : u &&& caredBits i = t &&& caredBits i) :
    rsvOf u = rsvOf t ∧ kindOf u = kindOf t ∧ eventOf u = eventOf t := by
  rcases caredBits_cases i with hm | hm | hm <;> rw [hm] at h <;>
    exact ⟨extractLsb'_eq_of_and_eq h (by decide), extractLsb'_eq_of_and_eq h (by decide),
      extractLsb'_eq_of_and_eq h (by decide)⟩

/-- A word that agrees with `t` on the bits that the row of `t` cares for names the same transaction. -/
theorem Decodes.of_and_caredBits_eq (h : Decodes t i) (hu : u &&& caredBits i = t &&& caredBits i) : Decodes u i := by
  obtain ⟨-, kind, event⟩ := fields_eq_of_and_caredBits_eq hu
  have addr (hm : caredBits i = 0xFFFFFF00#32) : addrOf u = addrOf t :=
    extractLsb'_eq_of_and_eq (hm ▸ hu) (by decide)
  have all (hm : caredBits i = 0xFFFFFFFF#32) : u = t := by
    rw [hm] at hu
    exact BitVec.and_allOnes.symm.trans (hu.trans BitVec.and_allOnes)
  cases h with
  | mrd hk => exact addr rfl ▸ .mrd (kind.trans hk)
  | mwr hk => exact all rfl ▸ .mwr (kind.trans hk)
  | mpk hk => exact addr rfl ▸ .mpk (kind.trans hk)
  | ior hk => exact addr (by simp) ▸ .ior (kind.trans hk)
  | iow hk => exact all (by simp) ▸ .iow (kind.trans hk)
  | iop hk => exact addr rfl ▸ .iop (kind.trans hk)
  | load hk he => exact .load (kind.trans hk) (event.trans he)
  | unload hk he => exact .unload (kind.trans hk) (event.trans he)
  | pwrup hk he => exact .pwrup (kind.trans hk) (event.trans he)
  | pwrdn hk he => exact .pwrdn (kind.trans hk) (event.trans he)
  | rst hk he => exact .rst (kind.trans hk) (event.trans he)
  | idle hk he => exact .idle (kind.trans hk) (event.trans he)

end Sys2Proof
end

section
/-! ### The row a word matches -/

namespace Sys2Proof

variable {t : TWord} {i : Instr} {r r' : OpcodeRow}

/-- The bits that two rows both fix have the same values in both, so that some word may match both. -/
def OpcodeRow.overlaps (r r' : OpcodeRow) : Bool := r.pattern &&& r'.mask == r'.pattern &&& r.mask

theorem OpcodeRow.overlaps_of_hits (h : r.hits t = true) (h' : r'.hits t = true) : r.overlaps r' = true := by
  rw [OpcodeRow.hits, beq_iff_eq] at h h'
  rw [OpcodeRow.overlaps, beq_iff_eq, ← h, ← h', BitVec.and_assoc, BitVec.and_assoc, BitVec.and_comm r.mask]

/-- R56: only a per-port row shares words with another row. -/
theorem eq_or_port_row_of_overlaps : ∀ r ∈ opcodeRows, ∀ r' ∈ opcodeRows, r.overlaps r' = true →
    r = r' ∨ r.mask = 0xFF00FF00#32 ∨ r'.mask = 0xFF00FF00#32 := by
  decide

/-- R56: each per-port row stands before every other row that shares words with it. -/
theorem find?_overlaps_of_port_row : ∀ r ∈ opcodeRows, r.mask = 0xFF00FF00#32 →
    opcodeRows.find? r.overlaps = some r := by
  decide

theorem find?_eq_some_of_imp {α : Type} {p q : α → Bool} {l : List α} {x : α} (hx : p x = true)
    (hpq : ∀ y, p y = true → q y = true) (h : l.find? q = some x) : l.find? p = some x := by
  obtain ⟨-, as, bs, hl, hbefore⟩ := List.find?_eq_some_iff_append.1 h
  refine List.find?_eq_some_iff_append.2 ⟨hx, as, bs, hl, fun y hy => ?_⟩
  have hqy : q y = false := by simpa using hbefore y hy
  simpa using fun hpy => Bool.false_ne_true (hqy.symm.trans (hpq y hpy))

theorem rowOf_decodeIow_congr {p q : IoAddr} (h : portOf p = portOf q) (d e : Byte) :
    rowOf (decodeIow p d) = rowOf (decodeIow q e) := by
  unfold decodeIow
  rw [h]
  split_ifs <;> rfl

theorem rowOf_decodeIor_congr {p q : IoAddr} (h : portOf p = portOf q) :
    rowOf (decodeIor p) = rowOf (decodeIor q) := by
  unfold decodeIor
  rw [h]
  split_ifs <;> rfl

/-- A per-port row of the table is that of its own kind and port. -/
theorem port_row_cases : ∀ r ∈ opcodeRows, r.mask = 0xFF00FF00#32 →
    (kindOf r.pattern = 0b011#3 ∧ r = rowOf (decodeIor (addrOf r.pattern))) ∨
      (kindOf r.pattern = 0b100#3 ∧ r = rowOf (decodeIow (addrOf r.pattern) 0#8)) := by
  decide

theorem fields_of_port_row_hits (hm : r.mask = 0xFF00FF00#32) (h : r.hits t = true) :
    kindOf r.pattern = kindOf t ∧ portOf (addrOf r.pattern) = portOf (addrOf t) := by
  rw [OpcodeRow.hits, beq_iff_eq, hm] at h
  have hp (x : TWord) : portOf (addrOf x) = x.extractLsb' 8 8 := by
    apply BitVec.eq_of_getLsbD_eq; intro j hj
    simp [portOf, addrOf, hj, show j < 16 by omega]
  rw [hp, hp, ← h, kindOf, kindOf, BitVec.extractLsb'_and, BitVec.extractLsb'_and]
  exact ⟨BitVec.and_allOnes, BitVec.and_allOnes⟩

/-- R59: if a per-port row matches, that row is the decode. -/
theorem Decodes.eq_rowOf_of_port_row (hd : Decodes t i) (hr : r ∈ opcodeRows) (hm : r.mask = 0xFF00FF00#32)
    (h : r.hits t = true) : r = rowOf i := by
  obtain ⟨hkind, hport⟩ := fields_of_port_row_hits hm h
  rcases port_row_cases r hr hm with ⟨hk, hrow⟩ | ⟨hk, hrow⟩
  · rw [hrow, hd.eq_decodeIor (hkind.symm.trans hk), rowOf_decodeIor_congr hport]
  · rw [hrow, hd.eq_decodeIow (hkind.symm.trans hk), rowOf_decodeIow_congr hport]

theorem rowOf_hits_encode (i : Instr) : (rowOf i).hits (encode i) = true := by
  cases i with
  | mrd | mwr | mpk | iowUnmapped | iorUnmapped | iop => exact Laws.hits_kind (by decide)
  | iowF8 | iowF9 | iowFA | iowFB | iowFC | iowFD | iowFE | iowFF => exact Laws.hits_port (by decide)
  | iorF8 | iorF9 | iorFA | iorFB | iorFC | iorFD | iorFE | iorFF => exact Laws.hits_port (by decide)
  | load | unload | pwrup | pwrdn | rst | idle => decide

/-- What a row fixes, it cares for. -/
theorem caredBits_and_rowOf_mask (i : Instr) : caredBits i &&& (rowOf i).mask = (rowOf i).mask := by
  cases i <;> (simp only [caredBits, rowOf]; decide)

theorem rowOf_hits_of_encode_eq (h : encode i = t &&& caredBits i) : (rowOf i).hits t = true := by
  have hrow := rowOf_hits_encode i
  rwa [h, OpcodeRow.hits, BitVec.and_assoc, caredBits_and_rowOf_mask] at hrow

theorem rowOf_mem_opcodeRows (i : Instr) : rowOf i ∈ opcodeRows := by
  cases i <;> simp [opcodeRows, rowOf]

/-- R59: the row of the decode is the first that the word matches. -/
theorem Decodes.find?_hits (hr : rsvOf t = 0#5) (hd : Decodes t i) :
    opcodeRows.find? (fun row => row.hits t) = some (rowOf i) := by
  have hi : (rowOf i).hits t = true := rowOf_hits_of_encode_eq (hd.encode_eq hr)
  have hmem := rowOf_mem_opcodeRows i
  have hsome : (opcodeRows.find? (OpcodeRow.hits · t)).isSome := List.find?_isSome.2 ⟨_, hmem, hi⟩
  obtain ⟨r, hfind⟩ := Option.isSome_iff_exists.1 hsome
  have hhit : r.hits t = true := List.find?_some (p := (OpcodeRow.hits · t)) hfind
  have hrmem := List.mem_of_find?_eq_some hfind
  rcases eq_or_port_row_of_overlaps _ hmem r hrmem (OpcodeRow.overlaps_of_hits hi hhit) with h | h | h
  · rw [hfind, h]
  · exact find?_eq_some_of_imp hi (fun _ => OpcodeRow.overlaps_of_hits hi) (find?_overlaps_of_port_row _ hmem h)
  · rw [hfind, hd.eq_rowOf_of_port_row hrmem h hhit]

end Sys2Proof
end

section
/-! ### The steps of I/O words -/

namespace Sys2Proof.Machine

variable {s : State} {p : IoAddr} {d : Byte} {v : Bool} {rest : List Request}

theorem step_iow_word (h : s.input = ⟨assemble 0b100#3 p d, v⟩ :: rest) :
    step s = whenActive s (.next (ioWrite portMap p d (accept ⟨assemble 0b100#3 p d, v⟩ rest s))) :=
  (step_of_decode_ok h (decode_assemble_iow p d)).trans (exec_decodeIow p d _)

theorem step_ior_word (h : s.input = ⟨assemble 0b011#3 p d, v⟩ :: rest) :
    step s = whenActive s
      (.next (reply (.byte (ioRead portMap p s)) (accept ⟨assemble 0b011#3 p d, v⟩ rest s))) :=
  (step_of_decode_ok h (decode_assemble_ior p d)).trans (exec_decodeIor p _)

theorem step_iop_word (h : s.input = ⟨assemble 0b101#3 p d, v⟩ :: rest) :
    step s = whenActive s
      (.next (reply (.byte (ioRead portMap p s)) (accept ⟨assemble 0b101#3 p d, v⟩ rest s))) :=
  step_of_decode_ok h (decode_assemble_iop p d)

/-- The step of an IOW word whose port names a half (R67). -/
theorem step_iow_half {q : Page} {g : Half} (hp : decodePort portMap p = some (q, g)) (hs : s.phase = .active)
    (h : s.input = ⟨assemble 0b100#3 p d, v⟩ :: rest) :
    step s = .next (setMapHalf q g d (accept ⟨assemble 0b100#3 p d, v⟩ rest s)) := by
  rw [step_iow_word h, whenActive_active hs, ioWrite_of_decodePort hp]

/-- The step of an IOR word whose port names a half (R78). -/
theorem step_ior_half {q : Page} {g : Half} (hp : decodePort portMap p = some (q, g)) (hs : s.phase = .active)
    (h : s.input = ⟨assemble 0b011#3 p d, v⟩ :: rest) :
    step s = .next (reply (.byte (mapHalf q g s)) (accept ⟨assemble 0b011#3 p d, v⟩ rest s)) := by
  rw [step_ior_word h, whenActive_active hs, ioRead_of_decodePort hp]

/-- Only the port of an I/O address is decoded (R51). -/
theorem ioWrite_ioAddr_high (pm : PortMap) (hi hi' port d : Byte) (s : State) :
    ioWrite pm (ioAddr hi port) d s = ioWrite pm (ioAddr hi' port) d s := by
  simp only [ioWrite, decodePort_ioAddr]

theorem ioRead_ioAddr_high (pm : PortMap) (hi hi' port : Byte) (s : State) :
    ioRead pm (ioAddr hi port) s = ioRead pm (ioAddr hi' port) s := by
  simp only [ioRead, decodePort_ioAddr]

@[simp] theorem ioWrite_output (pm : PortMap) (p : IoAddr) (d : Byte) (s : State) :
    (ioWrite pm p d s).output = s.output := by
  rcases ioWrite_cases pm p d s with ⟨-, hw⟩ | ⟨q, h, -, hw⟩ <;> simp [hw]

/-! ### SETMAP and GETMAP -/

theorem decodePort_highPort (p : Page) : decodePort portMap (highPort p) = some (p, .high) := by
  revert p; decide

theorem decodePort_lowPort (p : Page) : decodePort portMap (lowPort p) = some (p, .low) := by
  revert p; decide

theorem halfOf_high_append_low (v : MapReg) : (halfOf .high v ++ halfOf .low v : MapReg) = v := by
  have h : halfOf .high v ++ halfOf .low (withHalf .low (halfOf .low v) v) = v := withHalf_high_low v v
  rwa [halfOf_withHalf, if_pos rfl] at h

/-- Writing the high half, then the low half, writes the value (R58). -/
theorem setMapHalf_high_low (p : Page) (v : MapReg) (s : State) :
    setMapHalf p .low (halfOf .low v) (setMapHalf p .high (halfOf .high v) s) = { s with map := s.map.set p v } := by
  have hv (w : MapReg) : withHalf .low (halfOf .low v) (withHalf .high (halfOf .high v) w) = v := by
    rw [withHalf, halfOf_withHalf, if_pos rfl, halfOf_high_append_low]
  simp [setMapHalf, hv]

end Sys2Proof.Machine
end

section
/-! ### The port decoder's signals -/

namespace Sys2Proof.Machine

theorem portOf_extractLsb' (p : IoAddr) {i n : Nat} (h : i + n ≤ 8) :
    (portOf p).extractLsb' i n = p.extractLsb' i n := by
  apply BitVec.eq_of_getLsbD_eq; intro j hj
  simp [portOf, hj, show i + j < 8 by omega]

theorem recognised_iff_hit (p : IoAddr) : recognised p ↔ (portDecoderOut (portOf p)).hit = true := by
  simp only [recognised, portDecoderOut, beq_iff_eq]
  change 0xF8#8 ≤ portOf p ↔ _
  generalize portOf p = q
  rw [← BitVec.toNat_inj, BitVec.le_def]
  simp only [BitVec.extractLsb'_toNat, BitVec.toNat_ofNat, Nat.shiftRight_eq_div_pow]
  omega

/-- R53: the table of R68 is what the decoder's signals say. -/
theorem decodePort_eq_signals (p : IoAddr) : decodePort portMap p =
    if (portDecoderOut (portOf p)).hit then
      some ((portDecoderOut (portOf p)).page.toFin, halfOfBit (portDecoderOut (portOf p)).half)
    else none := by
  by_cases hp : recognised p
  · rw [if_pos ((recognised_iff_hit p).1 hp), decodePort]
    rcases port_cases hp with h | h | h | h | h | h | h | h <;> rw [h] <;> decide
  · rw [if_neg (mt (recognised_iff_hit p).2 hp), decodePort_of_not_recognised hp]

/-- R53's `~port[1:0]` is the page `3 - P[1:0]` of R68. -/
theorem portDecoderOut_page (p : IoAddr) : (portDecoderOut (portOf p)).page = 3#2 - p.extractLsb' 0 2 := by
  have compl : ∀ x : BitVec 2, ~~~x = 3#2 - x := by decide
  exact (compl _).trans (by rw [portOf_extractLsb' p (by decide)])

theorem portDecoderOut_half (p : IoAddr) :
    halfOfBit (portDecoderOut (portOf p)).half = if p.getLsbD 2 then .low else .high := by
  have h2 : (portOf p).getLsbD 2 = p.getLsbD 2 := by simp [portOf]
  rw [portDecoderOut, h2]
  cases p.getLsbD 2 <;> rfl

end Sys2Proof.Machine
end

section
/-! ### The translator's signals -/

namespace Sys2Proof.Machine

theorem muxOut_eq_get (sel : BitVec 2) (m : MapFile) :
    muxOut sel (m.get 0) (m.get 1) (m.get 2) (m.get 3) = m.get sel.toFin := by
  obtain ⟨q⟩ := sel
  fin_cases q <;> rfl

/-- R63: the offset is the register's low ten bits beside the address's low fourteen. -/
theorem shiftAndMask_eq_append (v : MapReg) (a : CpuAddr) :
    shiftAndMask v a = v.extractLsb' 0 10 ++ a.extractLsb' 0 14 := by
  have ha : a.toNat % 2 ^ 14 < 2 ^ 14 := Nat.mod_lt _ (by decide)
  rw [← BitVec.toNat_inj, shiftAndMask_toNat, BitVec.toNat_append, BitVec.extractLsb'_toNat, BitVec.extractLsb'_toNat,
    Nat.shiftRight_zero, Nat.shiftRight_zero, ← Nat.shiftLeft_add_eq_or_of_lt ha, Nat.shiftLeft_eq]

theorem translatorOut_eq_translateAddr (m : MapFile) (a : CpuAddr) :
    translatorOut a (m.get 0) (m.get 1) (m.get 2) (m.get 3) = translateAddr m a := by
  rw [translatorOut, muxOut_eq_get, translateAddr, shiftAndMask_eq_append]
  rfl

end Sys2Proof.Machine
end

section
/-! ### What a transaction does, by the block's signals -/

namespace Sys2Proof.Machine

variable {w : TWord} {i : Instr} {s t : State}

theorem exec_decodeIow_next {p : IoAddr} {d : Byte} (h : exec (decodeIow p d) s = .next t) :
    t = ioWrite portMap p d s := by
  rw [exec_decodeIow] at h
  obtain ⟨-, ht⟩ := whenActive_next h
  exact (Host.Outcome.next.inj ht).symm

theorem exec_decodeIor_next {p : IoAddr} (h : exec (decodeIor p) s = .next t) :
    t = reply (.byte (ioRead portMap p s)) s := by
  rw [exec_decodeIor] at h
  obtain ⟨-, ht⟩ := whenActive_next h
  exact (Host.Outcome.next.inj ht).symm

theorem ioRead_eq_signals (w : TWord) (v : Bool) (s : State) : ioRead portMap (addrOf w) s =
    if (portDecoderOut (portOf (addrOf w))).hit then regFileRdata s.map (regFileIn w v) else unmappedReadValue := by
  rw [ioRead, decodePort_eq_signals]
  split_ifs <;> rfl

theorem ioWrite_map_eq_signals (hk : kindOf w = 0b100#3) (v : Bool) (s : State) :
    (ioWrite portMap (addrOf w) (dataOf w) s).map = regFileNext resetClearsMap s.map (regFileIn w v) := by
  rw [ioWrite, decodePort_eq_signals]
  split_ifs with h <;> simp [regFileNext, regFileIn, hk, h]

/-- The register file holds its value for a word that neither raises `init` nor is an IOW. -/
theorem regFileNext_eq_self {x : RegFileIn} (hi : x.init = false) (hw : x.we = false) (m : MapFile) :
    regFileNext resetClearsMap m x = m := by
  simp [regFileNext, resetClearsMap, hi, hw]

/-- The registers after a transaction are the register file's next value (R46). -/
theorem exec_map_of_decodes (hd : Decodes w i) (h : exec i s = .next t) :
    t.map = regFileNext resetClearsMap s.map (regFileIn w s.versionOk) := by
  cases hd with
  | load hk he =>
    obtain ⟨-, ⟨hv, rfl⟩ | ⟨hv, rfl⟩⟩ := execLoad_next h
    · simp [regFileNext, regFileIn, hk, he, hv]
    · rw [reply_map, regFileNext_eq_self] <;> simp [regFileIn, hk, hv]
  | iow hk =>
    obtain rfl := exec_decodeIow_next h
    exact ioWrite_map_eq_signals hk _ s
  | ior hk =>
    obtain rfl := exec_decodeIor_next h
    rw [reply_map, regFileNext_eq_self] <;> simp [regFileIn, hk]
  | mrd hk | mwr hk | mpk hk | iop hk =>
    rw [exec_map (by simp) h, mapAfter_of_halfWritten_none _ rfl, regFileNext_eq_self] <;> simp [regFileIn, hk]
  | unload hk he | pwrup hk he | pwrdn hk he | rst hk he | idle hk he =>
    rw [exec_map (by simp) h, mapAfter_of_halfWritten_none _ rfl, regFileNext_eq_self] <;> simp [regFileIn, hk, he]

@[simp] theorem storePortOut_stOff (w : TWord) (m : MapFile) :
    (storePortOut w m).stOff = translateAddr m (addrOf w) :=
  translatorOut_eq_translateAddr m (addrOf w)

@[simp] theorem storePortOut_stWe (w : TWord) (m : MapFile) : (storePortOut w m).stWe = (kindOf w == 0b001#3) := rfl

@[simp] theorem storePortOut_stWdata (w : TWord) (m : MapFile) : (storePortOut w m).stWdata = dataOf w := rfl

/-- Every byte of the store after a transaction is the store port's, unless a LOAD initialises (R46). -/
theorem exec_memRead_of_decodes (hd : Decodes w i) (h : exec i s = .next t)
    (hinit : (regFileIn w s.versionOk).init = false) (o : Offset) :
    memRead o t = if (storePortOut w s.map).stWe = true ∧ o = (storePortOut w s.map).stOff then
      (storePortOut w s.map).stWdata else memRead o s := by
  cases hd with
  | load hk he =>
    obtain ⟨-, ⟨hv, rfl⟩ | ⟨hv, rfl⟩⟩ := execLoad_next h
    · simp [regFileIn, hk, he, hv] at hinit
    · simp [hk]
  | iow hk =>
    obtain rfl := exec_decodeIow_next h
    simp [hk]
  | ior hk =>
    obtain rfl := exec_decodeIor_next h
    simp [hk]
  | mwr hk => simpa [hk] using exec_memRead_of_byteStored (i := .mwr _ _) rfl h o
  | mrd hk | mpk hk | iop hk => simp [hk, exec_memRead_of_byteStored_none (m := s.map) rfl (by simp) h]
  | unload hk he | pwrup hk he | pwrdn hk he | rst hk he | idle hk he =>
    simp [hk, exec_memRead_of_byteStored_none (m := s.map) rfl (by simp) h]

/-- What a transaction that is no lifecycle event returns is the result byte, if there is one (R46). -/
theorem exec_output_of_decodes (hd : Decodes w i) (h : exec i s = .next t) (hc : kindOf w ≠ 0b110#3) :
    t.output = (resultByte w (regFileRdata s.map (regFileIn w s.versionOk))
      (memRead (storePortOut w s.map).stOff s)).elim s.output (fun b => .byte b :: s.output) := by
  cases hd with
  | load hk | unload hk | pwrup hk | pwrdn hk | rst hk | idle hk => exact absurd hk hc
  | iow hk =>
    obtain rfl := exec_decodeIow_next h
    simp [resultByte, hk]
  | ior hk =>
    obtain rfl := exec_decodeIor_next h
    simp [resultByte, hk, ← ioRead_eq_signals]
  | mrd hk | mpk hk | mwr hk =>
    obtain ⟨-, ht⟩ := whenActive_next h
    cases ht
    simp [resultByte, hk]
  | iop hk =>
    obtain ⟨-, ht⟩ := whenActive_next h
    cases ht
    simp [resultByte, hk, ← ioRead_eq_signals]

theorem resultByte_of_event (hk : kindOf w = 0b110#3) (x y : Byte) : resultByte w x y = none := by
  simp [resultByte, hk]

end Sys2Proof.Machine
end

section
/-! ### The statements of the family -/

namespace Sys2Proof.Machine

/-- Settles O5: a case split on the transaction; the fields of the assembled word select it again. -/
theorem decodeInvertsEncode : Obligations.DecodeInvertsEncode := by
  intro i hi
  cases i with
  | mrd | mwr | mpk => simp [encode, decode]
  | iop p => exact decode_assemble_iop p _
  | iowF8 | iowF9 | iowFA | iowFB | iowFC | iowFD | iowFE | iowFF => simp [encode, decodeIow]
  | iorF8 | iorF9 | iorFA | iorFB | iorFC | iorFD | iorFE | iorFF => simp [encode, decodeIor]
  | iowUnmapped p d =>
    have hp : ¬ recognised p := of_decide_eq_true hi
    rw [encode, decode_assemble_iow, decodeIow_of_not_recognised hp]
  | iorUnmapped p =>
    have hp : ¬ recognised p := of_decide_eq_true hi
    rw [encode, decode_assemble_ior, decodeIor_of_not_recognised hp]
  | load | unload | pwrup | pwrdn | rst | idle => exact decode_assemble_event ..

/-- Settles O3: the decoder rejects exactly these words, and the step refuses what the decoder rejects. -/
theorem reservedWordsAreRefused : Obligations.ReservedWordsAreRefused := by
  refine ⟨fun t => exists_decode_error_iff.2, fun s r rest hs hr => ?_⟩
  obtain ⟨e, he⟩ := exists_decode_error_iff.2 hr
  exact step_of_decode_error hs he

/-- Settles O4: of the rows that share words with the decode's row, the per-port ones stand first, and one that matches is
the decode's. -/
theorem decodeFollowsOpcodeTable : Obligations.DecodeFollowsOpcodeTable := by
  refine fun t => ⟨exists_decode_error_iff.2, fun h => ?_⟩
  obtain ⟨i, hi⟩ := exists_decode_ok h
  obtain ⟨hr, hd⟩ := rsvOf_and_decodes_of_decode hi
  exact ⟨i, hi, hd.wellFormed, hd.find?_hits hr, fun row => hd.eq_rowOf_of_port_row⟩

/-- Settles O6: by the kind and the event code of the word. -/
theorem encodeInvertsDecode : Obligations.EncodeInvertsDecode := by
  intro t i h
  obtain ⟨hr, hi⟩ := rsvOf_and_decodes_of_decode h
  exact ⟨hi.wellFormed, hi.encode_eq hr⟩

/-- Settles O7: the fields that select the transaction lie within the bits cared for. -/
theorem ignoredBitsDoNotChangeDecode : Obligations.IgnoredBitsDoNotChangeDecode := by
  intro t u i h hu
  obtain ⟨hr, hi⟩ := rsvOf_and_decodes_of_decode h
  obtain ⟨rsv, -⟩ := fields_eq_of_and_caredBits_eq hu
  exact decode_of_decodes (rsv.trans hr) (hi.of_and_caredBits_eq hu)

/-- Settles O8: the step goes through the port decoder, which sees the port alone. -/
theorem ioAddressHighByteIsIgnored : Obligations.IoAddressHighByteIsIgnored := by
  rintro k hi hi' port d v rest s (rfl | rfl | rfl)
  · rw [step_ior_word rfl, step_ior_word rfl, ioRead_ioAddr_high portMap hi hi']; rfl
  · rw [step_iow_word rfl, step_iow_word rfl, ioWrite_ioAddr_high portMap hi hi']; rfl
  · rw [step_iop_word rfl, step_iop_word rfl, ioRead_ioAddr_high portMap hi hi']; rfl

/-- Settles O32: the signals give the table, and they are the formula on the port's bits. -/
theorem portTableIsBitFormula : Obligations.PortTableIsBitFormula := by
  refine fun p => ⟨?_, decodePort_eq_signals p⟩
  have hhit : (portDecoderOut (portOf p)).hit = true ↔ p.extractLsb' 3 5 = 0b11111#5 := by
    simp [portDecoderOut, portOf_extractLsb']
  rw [decodePort_eq_signals, portDecoderOut_page, portDecoderOut_half, if_congr hhit rfl rfl]

/-- Settles O41: each word's step is its port's, and a register is its two halves. -/
theorem setmapAndGetmapExpand : Obligations.SetmapAndGetmapExpand := by
  refine ⟨fun s p v rest hs hi => ?_, fun s p rest hs hi => ?_⟩
  · refine ⟨_, _, step_iow_half (decodePort_highPort p) hs hi, step_iow_half (decodePort_lowPort p) hs rfl, ?_, ?_⟩
    · rw [setMapHalf_map, MapFile.get_set, if_pos rfl]
      rfl
    · exact setMapHalf_high_low p v { s with input := rest, versionOk := true }
  · exact ⟨_, _, step_ior_half (decodePort_highPort p) hs hi, step_ior_half (decodePort_lowPort p) hs rfl,
      halfOf .high (s.map.get p), halfOf .low (s.map.get p), halfOf_high_append_low (s.map.get p), rfl⟩

/-- Settles O51: the multiplexer picks the page's register, and the bits passed on are TRANSLATE's closed form. -/
theorem translatorSignalsGiveTranslate : Obligations.TranslatorSignalsGiveTranslate :=
  translatorOut_eq_translateAddr

/-- Settles O52: by the transaction that the word names, one lemma for each of the registers, the store and the reply. -/
theorem stepRefinesBlockSignals : Obligations.StepRefinesBlockSignals := by
  intro s t r rest hs h
  cases hd : decode r.word with
  | error e =>
    rw [step_of_decode_error hs hd] at h
    cases h
  | ok i =>
    rw [step_of_decode_ok hs hd] at h
    obtain ⟨-, hi⟩ := rsvOf_and_decodes_of_decode hd
    have hout := exec_output_of_decodes hi h
    refine ⟨exec_map_of_decodes hi h, exec_memRead_of_decodes hi h, fun b hb => ?_, fun hb hk => ?_⟩
    · have hk : kindOf r.word ≠ 0b110#3 := fun hk => by simp [resultByte_of_event hk] at hb
      exact (hout hk).trans (congrArg (Option.elim · s.output _) hb)
    · exact (hout hk).trans (congrArg (Option.elim · s.output _) hb)

/-- Settles O1: the step's own branch for a word that decodes. -/
theorem stepRunsDecodedTransaction : Obligations.StepRunsDecodedTransaction := fun _ _ _ _ => step_of_decode_ok

end Sys2Proof.Machine
end

/-! Proofs of the family 40_translator.md: TRANSLATE's closed form (R61, R63), its range (R64) and its linearity within a
page (R65), and where a write through a page lands (R31, R61). First the laws they rest on, then the four statements. -/

section
/-! ### The base address of a page and the offset from it -/

namespace Sys2Proof.Machine

theorem and_3FFF_toNat (a : CpuAddr) : (a &&& 0x3FFF#16).toNat = a.toNat % 2 ^ 14 :=
  Nat.and_two_pow_sub_one_eq_mod _ 14

/-- `A & 0xC000` keeps the page bits `A[15:14]`. -/
theorem and_C000_div_pageSize (a : CpuAddr) : (a &&& 0xC000#16).toNat / 2 ^ 14 = a.toNat / 2 ^ 14 := by
  have ha : a.toNat / 2 ^ 14 < 2 ^ 2 := by omega
  calc (a &&& 0xC000#16).toNat / 2 ^ 14
      = a.toNat / 2 ^ 14 &&& 2 ^ 2 - 1 := Nat.and_div_two_pow
    _ = a.toNat / 2 ^ 14 := Nat.and_two_pow_sub_one_of_lt_two_pow ha

/-- `A & 0xC000` clears the offset in the page, `A[13:0]`. -/
theorem and_C000_mod_pageSize (a : CpuAddr) : (a &&& 0xC000#16).toNat % 2 ^ 14 = 0 :=
  Nat.and_mod_two_pow.trans (Nat.and_zero _)

theorem pageSelect_and_C000 (m : MapFile) (a : CpuAddr) : pageSelect m (a &&& 0xC000#16) = pageSelect m a :=
  pageSelect_of_div_eq ((and_C000_div_pageSize a).trans (pageOf_val a).symm) m

/-- The offset of a page's first address is the base of the segment that the page maps. -/
theorem translateAddr_and_C000_toNat (m : MapFile) (a : CpuAddr) :
    (translateAddr m (a &&& 0xC000#16)).toNat = (pageSelect m a).toNat % 1024 * 2 ^ 14 := by
  rw [translateAddr_toNat, pageSelect_and_C000, and_C000_mod_pageSize, Nat.add_zero]

/-- The offset from the base, `A & 0x3FFF`, is added without a carry out of the segment (R65). -/
theorem translateAddr_toNat_eq_base_add (m : MapFile) (a : CpuAddr) : (translateAddr m a).toNat =
    (translateAddr m (a &&& 0xC000#16)).toNat + (a &&& 0x3FFF#16).toNat := by
  rw [translateAddr_toNat, translateAddr_and_C000_toNat, and_3FFF_toNat]

/-- R61, R31: every offset of a page lies in the 16 KiB segment that the page maps. -/
theorem translateAddr_div_segmentSize (m : MapFile) (a : CpuAddr) :
    (translateAddr m a).toNat / 16384 = (pageSelect m a).toNat % 1024 := by
  rw [translateAddr_toNat]
  omega

end Sys2Proof.Machine
end

section
/-! ### The statements of the family -/

namespace Sys2Proof.Machine

/-- Settles O18: the page selects the register, and the shift-and-mask of its value is the two fields side by side. -/
theorem translateClosedForm : Obligations.TranslateClosedForm := by
  intro m a p hp
  have hsel : pageSelect m a = m.get p := pageSelect_of_div_eq hp.symm m
  rw [translateAddr_toNat, translateAddr, hsel]
  exact ⟨shiftAndMask_eq_append _ a, rfl⟩

/-- Settles O21: the sum of the segment base and the offset does not wrap, so subtracting the base leaves the offset. -/
theorem translateLinearWithinPage : Obligations.TranslateLinearWithinPage := by
  intro m a
  have hsum := translateAddr_toNat_eq_base_add m a
  exact ⟨by bv_omega, hsum⟩

/-- Settles O31: the MWR stores only at its translated offset, which lies in the segment. -/
theorem pageWritesStayInMappedSegment : Obligations.PageWritesStayInMappedSegment := by
  intro s t a d o h ho
  have hne : o ≠ translateAddr s.map a := by
    rintro rfl
    exact ho (translateAddr_div_segmentSize s.map a)
  rw [exec_memRead_of_byteStored rfl h, if_neg hne]

/-- Settles O20: the mask bounds the raw value by `2 ^ 24 - 1`, so it fits the 24 bits it is narrowed to. -/
theorem translateStaysInStore : Obligations.TranslateStaysInStore := by
  intro m a raw
  have hle : (raw &&& 0xFFFFFF#30).toNat ≤ 2 ^ 24 - 1 := Nat.and_le_right
  have hnarrow : ((raw &&& 0xFFFFFF#30).setWidth 24).toNat = (raw &&& 0xFFFFFF#30).toNat := by
    rw [BitVec.toNat_setWidth]
    exact Nat.mod_eq_of_lt (Nat.lt_succ_of_le hle)
  exact ⟨hnarrow.symm, hle⟩

end Sys2Proof.Machine
end

/-! Proofs of the family 41_port_write.md: what an I/O write does to the registers at each of the eight recognised ports
(R69 to R76) and at any other (R77). First the laws they rest on, then the three statements. -/

section
/-! ### I/O writes while the block is ACTIVE -/

namespace Sys2Proof.Machine

/-- An IOW whose port has a row in the table of R68 writes that row's half, and nothing else (R67). -/
theorem whenActive_ioWrite_ioAddr {port : Byte} {q : Page} {h : Half} {s : State} (hp : portMap port = some (q, h))
    (hs : s.phase = .active) (pHi d : Byte) :
    whenActive s (.next (ioWrite portMap (ioAddr pHi port) d s)) = .next (setMapHalf q h d s) := by
  rw [whenActive_active hs, ioWrite_of_decodePort ((decodePort_ioAddr ..).trans hp)]

theorem exec_of_halfWritten {i : Instr} {s : State} {q : Page} {h : Half} {d : Byte}
    (hw : halfWritten i = some (q, h, d)) (hs : s.phase = .active) : exec i s = .next (setMapHalf q h d s) := by
  cases i with
  | iowF8 | iowF9 | iowFA | iowFB | iowFC | iowFD | iowFE | iowFF =>
    cases hw
    exact whenActive_ioWrite_ioAddr rfl hs ..
  | _ => cases hw

theorem ioWrite_of_not_recognised {p : IoAddr} (hp : ¬ recognised p) (d : Byte) (s : State) :
    ioWrite portMap p d s = s := by
  simp only [ioWrite, decodePort_of_not_recognised hp]

end Sys2Proof.Machine
end

section
/-! ### The statements of the family -/

namespace Sys2Proof.Machine

/-- Settles O33: each of the four transactions writes the high half of its register. -/
theorem iowHighPortsWriteHighHalf : Obligations.IowHighPortsWriteHighHalf := by
  intro s hi d hs
  have writes {i : Instr} (q : Page) (hw : halfWritten i = some (q, .high, d)) :
      exec i s = .next (setMapHalf q .high d s) := exec_of_halfWritten hw hs
  exact ⟨writes 3 rfl, writes 2 rfl, writes 1 rfl, writes 0 rfl⟩

/-- Settles O34: each of the four transactions writes the low half of its register. -/
theorem iowLowPortsWriteLowHalf : Obligations.IowLowPortsWriteLowHalf := by
  intro s hi d hs
  have writes {i : Instr} (q : Page) (hw : halfWritten i = some (q, .low, d)) :
      exec i s = .next (setMapHalf q .low d s) := exec_of_halfWritten hw hs
  exact ⟨writes 3 rfl, writes 2 rfl, writes 1 rfl, writes 0 rfl⟩

/-- Settles O35: the transaction has no effect of its own, and a word with such a port writes through the port map, which
has no row for it. -/
theorem iowUnmappedChangesNothing : Obligations.IowUnmappedChangesNothing := by
  refine ⟨fun s p d hs _ => whenActive_active hs _, fun s p d v rest hs hp hi => ?_⟩
  rw [step_iow_word hi, whenActive_active hs, ioWrite_of_not_recognised hp, accept]

end Sys2Proof.Machine
end

/-! Proofs of the family 42_port_read.md: what an I/O read returns at each of the eight recognised ports (R79 to R86) and
at any other (R87), and the peek that returns the same (R88). First the laws they rest on, then the three statements. -/

section
/-! ### I/O reads while the block is ACTIVE -/

namespace Sys2Proof.Machine

variable {s : State} {p : IoAddr}

/-- An I/O read at a port that has a row in the table of R68 returns that row's half (R78). -/
theorem whenActive_reply_ioRead_ioAddr {port : Byte} {q : Page} {h : Half} (hp : portMap port = some (q, h))
    (hs : s.phase = .active) (pHi : Byte) :
    whenActive s (.next (reply (.byte (ioRead portMap (ioAddr pHi port) s)) s)) =
      .next (reply (.byte (mapHalf q h s)) s) := by
  rw [whenActive_active hs, ioRead_of_decodePort ((decodePort_ioAddr ..).trans hp)]

theorem ioRead_of_not_recognised (hp : ¬ recognised p) (s : State) : ioRead portMap p s = unmappedReadValue := by
  simp only [ioRead, decodePort_of_not_recognised hp]

/-- R53's formula at a recognised port. -/
theorem decodePort_eq_bits (hp : recognised p) : decodePort portMap p =
    some ((3#2 - p.extractLsb' 0 2).toFin, if p.getLsbD 2 then .low else .high) := by
  rw [decodePort_eq_signals, if_pos ((recognised_iff_hit p).1 hp), portDecoderOut_page, portDecoderOut_half]

/-- What an I/O read returns, by the bits of its address (R53, R78). -/
theorem ioRead_eq_bits (p : IoAddr) (s : State) : ioRead portMap p s =
    if recognised p then
      let v := s.map.get (3#2 - p.extractLsb' 0 2).toFin
      if p.getLsbD 2 then v.extractLsb' 0 8 else v.extractLsb' 8 8
    else 0xFF#8 := by
  by_cases hp : recognised p
  · rw [ioRead_of_decodePort (decodePort_eq_bits hp), if_pos hp]
    cases p.getLsbD 2 <;> rfl
  · rw [ioRead_of_not_recognised hp, if_neg hp, unmappedReadValue]

end Sys2Proof.Machine
end

section
/-! ### The statements of the family -/

namespace Sys2Proof.Machine

/-- Settles O38: both go through the same port map, whose rows are the formula on the address's bits. -/
theorem iopReturnsWhatIorReturns : Obligations.IopReturnsWhatIorReturns := by
  refine ⟨fun s p => (exec_decodeIor p s).symm, fun s p hs => ?_⟩
  rw [← ioRead_eq_bits]
  exact whenActive_active hs _

/-- Settles O36: each of the eight transactions reads the half that its port's row names. -/
theorem iorPortsReturnTheirHalf : Obligations.IorPortsReturnTheirHalf := by
  intro s hi hs
  have reads {port : Byte} (q : Page) (h : Half) (hp : portMap port = some (q, h)) :=
    whenActive_reply_ioRead_ioAddr hp hs hi
  exact ⟨reads 3 .high rfl, reads 2 .high rfl, reads 1 .high rfl, reads 0 .high rfl,
    reads 3 .low rfl, reads 2 .low rfl, reads 1 .low rfl, reads 0 .low rfl⟩

/-- Settles O37: the transaction returns the constant, and a word with such a port reads through the port map, which has
no row for it. -/
theorem iorUnmappedReturnsFF : Obligations.IorUnmappedReturnsFF := by
  refine ⟨fun s p hs _ => whenActive_active hs _, fun s p d v rest hs hp hi => ?_⟩
  rw [step_ior_word hi, whenActive_active hs, ioRead_of_not_recognised hp]
  rfl

end Sys2Proof.Machine
end

/-! Proofs of the family 43_memory_access.md: the byte that MRD returns (R89), the byte that MWR writes (R90), and the peek
that returns what MRD returns (R91, R92). First the two laws they rest on, then the three statements. -/

section
/-! ### The read of an unwritten byte, and the peek -/

namespace Sys2Proof.Machine

/-- An offset not written since the LOAD reads as that LOAD's draw of SEG_INIT (R21, R40). -/
theorem memRead_of_read?_eq_none {s : State} {o : Offset} (h : s.store.read? o.toNat = none) :
    memRead o s = Config.segInit s.draw o := by
  rw [memRead, h, Option.getD_none, unwrittenByte]

/-- MPK answers as MRD does in either phase: the same refusal, or the same reply (R91, R92). -/
theorem exec_mpk_eq_exec_mrd (s : State) (a : CpuAddr) : exec (.mpk a) s = exec (.mrd a) s := by
  cases hs : s.phase with
  | unloaded => rw [exec_notActive hs (by simp), exec_notActive hs (by simp)]
  | active => rw [exec_mpk_active hs, exec_mrd_active hs]

end Sys2Proof.Machine
end

section
/-! ### The statements of the family -/

namespace Sys2Proof.Machine

/-- Settles O27: the final state is `memWrite` at the translated offset, which sets that byte and no other. -/
theorem mwrStoresExactlyOneByte : Obligations.MwrStoresExactlyOneByte := by
  intro s a d hs
  refine ⟨memWrite (translateAddr s.map a) d s, exec_mwr_active hs a d, rfl, ?_, fun o ho => ?_⟩
  · rw [memRead_memWrite, if_pos rfl]
  · rw [memRead_memWrite, if_neg ho]

/-- Settles O26: the final state is the reply of the byte at the translated offset, which is SEG_INIT's if unwritten. -/
theorem mrdReturnsTranslatedByte : Obligations.MrdReturnsTranslatedByte :=
  fun _ a hs => ⟨exec_mrd_active hs a, memRead_of_read?_eq_none⟩

/-- Settles O28: the outcomes agree in either phase, and in an ACTIVE block the outcome is MRD's reply. -/
theorem peekEqualsRead : Obligations.PeekEqualsRead :=
  ⟨exec_mpk_eq_exec_mrd, fun _ a hs => exec_mpk_active hs a⟩

end Sys2Proof.Machine
end

/-! Proofs of the family 44_lifecycle.md: the LOAD that fails or is refused (R94, R101), UNLOAD (R95), and the mapping
registers that nothing shows after it. First the laws they rest on, then the four statements. -/

section
/-! ### What LOAD and UNLOAD answer -/

namespace Sys2Proof.Machine

variable {s : State}

theorem exec_load_active (hs : s.phase = .active) : exec .load s = .refused .alreadyActive := by
  simp [exec, execLoad, hs]

theorem exec_load_of_versionOk (hs : s.phase = .unloaded) (hv : s.versionOk = true) :
    exec .load s = .next (reply (.status .ok) (initialise s)) := by
  simp [exec, execLoad, hs, hv]

theorem exec_load_of_not_versionOk (hs : s.phase = .unloaded) (hv : s.versionOk = false) :
    exec .load s = .next (reply (.status .fail) s) := by
  simp [exec, execLoad, hs, hv]

theorem exec_unload_active (hs : s.phase = .active) : exec .unload s = .next (reply (.status .ok) (detach s)) :=
  whenActive_active hs _

end Sys2Proof.Machine
end

section
/-! ### Runs of blocks that differ only in the mapping registers -/

namespace Sys2Proof.Machine

variable {i : Instr} {s t : State}

theorem execAll_cons_of_next (h : exec i s = .next t) (is : List Instr) : execAll (i :: is) s = execAll is t := by
  rw [execAll, h]

theorem execAll_cons_of_refused {q : Refusal} (h : exec i s = .refused q) (is : List Instr) :
    execAll (i :: is) s = .refused q := by
  rw [execAll, h]

/-- The block with the registers `m` in place of its own. -/
def withMap (m : MapFile) (s : State) : State := { s with map := m }

/-- A LOAD's initialisation overwrites the registers (R94). -/
theorem initialise_withMap (m : MapFile) (s : State) : initialise (withMap m s) = initialise s := rfl

theorem reply_withMap (m : MapFile) (r : Reply) (s : State) : reply r (withMap m s) = withMap m (reply r s) := rfl

theorem detach_withMap (m : MapFile) (s : State) : detach (withMap m s) = withMap m (detach s) := rfl

/-- The second outcome is the first, or the first with the registers `m` in its next state. -/
def AgreeUpToMap (m : MapFile) (o o' : Host.Outcome State Fault Refusal) : Prop :=
  o' = o ∨ ∃ t, o = .next t ∧ o' = .next (withMap m t)

/-- No run of an UNLOADED block depends on its registers: a LOAD that fails leaves them unread, one that succeeds
overwrites them, and any other transaction is refused (R20, R94, R101). -/
theorem execAll_agreeUpToMap_of_unloaded (m : MapFile) (is : List Instr) (hs : s.phase = .unloaded) :
    AgreeUpToMap m (execAll is s) (execAll is (withMap m s)) := by
  have hs' : (withMap m s).phase = .unloaded := hs
  induction is generalizing s with
  | nil => exact .inr ⟨s, rfl, rfl⟩
  | cons i is ih =>
    by_cases hl : i = .load
    · subst hl
      cases hv : s.versionOk with
      | true =>
        rw [execAll_cons_of_next (exec_load_of_versionOk hs hv), execAll_cons_of_next (exec_load_of_versionOk hs' hv),
          initialise_withMap]
        exact .inl rfl
      | false =>
        rw [execAll_cons_of_next (exec_load_of_not_versionOk hs hv),
          execAll_cons_of_next (exec_load_of_not_versionOk hs' hv), reply_withMap]
        exact ih hs hs'
    · rw [execAll_cons_of_refused (exec_notActive hs hl), execAll_cons_of_refused (exec_notActive hs' hl)]
      exact .inl rfl

/-- UNLOAD reads no register, and leaves an UNLOADED block or is refused by one (R95). -/
theorem execAll_unload_agreeUpToMap (m : MapFile) (is : List Instr) (s : State) :
    AgreeUpToMap m (execAll (.unload :: is) s) (execAll (.unload :: is) (withMap m s)) := by
  cases hs : s.phase with
  | unloaded => exact execAll_agreeUpToMap_of_unloaded m _ hs
  | active =>
    have hs' : (withMap m s).phase = .active := hs
    rw [execAll_cons_of_next (exec_unload_active hs), execAll_cons_of_next (exec_unload_active hs'), detach_withMap,
      reply_withMap]
    exact execAll_agreeUpToMap_of_unloaded m is rfl

end Sys2Proof.Machine
end

section
/-! ### The statements of the family -/

namespace Sys2Proof.Machine

/-- Settles O48: the two runs agree up to the registers, which neither the results nor the phase show. -/
theorem unloadHidesMappingRegisters : Obligations.UnloadHidesMappingRegisters := by
  intro is s m
  rcases execAll_unload_agreeUpToMap m is s with h | ⟨u, hu, hu'⟩
  · exact ⟨fun t ht => ⟨t, h.trans ht, rfl, rfl⟩, fun _ hq => h.trans hq⟩
  · rw [hu]
    refine ⟨fun t ht => ?_, fun q hq => by cases hq⟩
    cases ht
    exact ⟨_, hu', rfl, rfl⟩

/-- Settles O45: the failed LOAD's answer is the state with FAIL returned and nothing else. -/
theorem failedLoadChangesNothing : Obligations.FailedLoadChangesNothing :=
  ⟨rfl, rfl, fun _ => exec_load_of_not_versionOk⟩

/-- Settles O46: LOAD looks at the phase before the version check. -/
theorem loadWhileActiveIsRefused : Obligations.LoadWhileActiveIsRefused := fun _ => exec_load_active

/-- Settles O47: UNLOAD's answer is the detached block with OK returned, whose phase refuses all but LOAD. -/
theorem unloadDetachesTheBlock : Obligations.UnloadDetachesTheBlock :=
  ⟨fun _ hs => ⟨_, exec_unload_active hs, rfl, rfl, rfl, rfl, fun _ => exec_notActive rfl⟩,
    fun _ hs => exec_notActive hs (by decide)⟩

end Sys2Proof.Machine
end

/-! Proofs of the family 60_exceptions.md: which transactions complete and which are refused (R20, R102, R103), and what a
completed one returns (R115). First the laws they rest on, then the three statements. -/

section
/-! ### The phase in which a transaction completes, and the host's duty -/

namespace Sys2Proof.Machine

variable {i : Instr} {s t : State} {r : Request} {rest : List Request}

theorem phaseFor_of_ne_load (hi : i ≠ .load) : phaseFor i = .active := if_neg hi

theorem exec_load_completes (hs : s.phase = .unloaded) : ∃ t, exec .load s = .next t := by
  cases hv : s.versionOk with
  | true => exact ⟨_, exec_load_of_versionOk hs hv⟩
  | false => exact ⟨_, exec_load_of_not_versionOk hs hv⟩

/-- A transaction is total in the phase in which it may be delivered (R20, R102). -/
theorem exec_completes (hs : s.phase = phaseFor i) : ∃ t, exec i s = .next t := by
  cases i with
  | load => exact exec_load_completes hs
  | _ => exact ⟨_, whenActive_active hs _⟩

theorem phase_eq_phaseFor_of_exec_next (h : exec i s = .next t) : s.phase = phaseFor i := by
  rcases exec_next_cases h with ⟨hs, hi, -⟩ | ⟨hs, rfl, -⟩
  · rw [hs, phaseFor_of_ne_load hi]
  · exact hs

theorem exec_completes_iff : (∃ t, exec i s = .next t) ↔ s.phase = phaseFor i :=
  ⟨fun ⟨_, h⟩ => phase_eq_phaseFor_of_exec_next h, exec_completes⟩

theorem step_of_input_nil (hs : s.input = []) : step s = .next s := by
  simp only [step, hs, await]

theorem hostKeepsDuty_of_input_nil (hs : s.input = []) : hostKeepsDuty s := by
  simp [hostKeepsDuty, hs]

theorem hostKeepsDuty_iff_of_input_cons (hs : s.input = r :: rest) :
    hostKeepsDuty s ↔ ∃ i, decode r.word = .ok i ∧ s.phase = phaseFor i := by
  simp [hostKeepsDuty, hs]

end Sys2Proof.Machine
end

section
/-! ### What a completed transaction adds to the results returned -/

namespace Sys2Proof.Machine

variable {i : Instr} {s t : State}

theorem exec_output_of_replyKind_byte (hk : replyKind i = .byte) (h : exec i s = .next t) :
    ∃ b, t.output = .byte b :: s.output := by
  obtain ⟨-, -, hl, -⟩ := writes_nothing_of_replyKind_byte hk s.map
  have hs : s.phase = .active := (phase_eq_phaseFor_of_exec_next h).trans (phaseFor_of_ne_load hl)
  obtain ⟨b, hb, -⟩ := exec_byte_congr hk hs hs rfl fun _ => rfl
  cases hb.symm.trans h
  exact ⟨b, rfl⟩

theorem exec_load_output (h : exec .load s = .next t) : ∃ st, t.output = .status st :: s.output := by
  obtain ⟨-, ⟨-, rfl⟩ | ⟨-, rfl⟩⟩ := execLoad_next h
  · exact ⟨.ok, rfl⟩
  · exact ⟨.fail, rfl⟩

theorem exec_unload_output (h : exec .unload s = .next t) : t.output = .status .ok :: s.output := by
  cases (exec_unload_active (phase_eq_phaseFor_of_exec_next h)).symm.trans h
  rfl

theorem exec_output_of_replyKind_status (hk : replyKind i = .status) (h : exec i s = .next t) :
    ∃ st, t.output = .status st :: s.output := by
  cases i with
  | load => exact exec_load_output h
  | unload => exact ⟨.ok, exec_unload_output h⟩
  | _ => cases hk

/-- What returns nothing is a write, or an event that changes nothing on this hardware (R77, R90, R96 to R99). -/
theorem exec_output_of_replyKind_nothing (hk : replyKind i = .nothing) (h : exec i s = .next t) :
    t.output = s.output := by
  cases i with
  | mwr | iowF8 | iowF9 | iowFA | iowFB | iowFC | iowFD | iowFE | iowFF | iowUnmapped | pwrup | pwrdn | rst | idle =>
    obtain ⟨-, ht⟩ := whenActive_next h
    cases ht
    simp
  | _ => cases hk

end Sys2Proof.Machine
end

section
/-! ### The statements of the family -/

namespace Sys2Proof.Machine

/-- Settles O13: LOAD answers one way or the other by its version check, and every other meaning is total while ACTIVE. -/
theorem everyTransactionCompletes : Obligations.EveryTransactionCompletes := fun _ _ => exec_completes

/-- Settles O14: by the queue and the oldest word's decode; a word that decodes completes exactly in its own phase. -/
theorem stepCompletesExactlyWhenHostKeepsDuty : Obligations.StepCompletesExactlyWhenHostKeepsDuty := by
  intro s
  cases hs : s.input with
  | nil => exact iff_of_true ⟨s, step_of_input_nil hs⟩ (hostKeepsDuty_of_input_nil hs)
  | cons r rest =>
    rw [hostKeepsDuty_iff_of_input_cons hs]
    cases hd : decode r.word with
    | error e => simp [step_of_decode_error hs hd]
    | ok i =>
      rw [step_of_decode_ok hs hd, exec_completes_iff, accept_phase]
      simp

/-- Settles O17: one law for each entry of the table's column. -/
theorem transactionsReturnWhatTheHostTableSays : Obligations.TransactionsReturnWhatTheHostTableSays :=
  fun _ _ _ h => ⟨(exec_output_of_replyKind_byte · h), (exec_output_of_replyKind_status · h),
    (exec_output_of_replyKind_nothing · h)⟩

end Sys2Proof.Machine
end

/-! Proofs of the family 70_reset_and_hazards.md: the block that a successful LOAD leaves (R116, R119), the power and reset
events (R117), and the page whose mapping register is half written (R121, R123). First the laws they rest on, then the
four statements. -/

section
/-! ### Translation through the registers that LOAD leaves -/

namespace Sys2Proof.Machine

theorem pageSelect_zero (a : CpuAddr) : pageSelect MapFile.zero a = 0x0000#16 := MapFile.get_zero _

/-- Through four zero registers every page reaches segment 0 (R119). -/
theorem translateAddr_zero (a : CpuAddr) : translateAddr MapFile.zero a = (a &&& 0x3FFF#16).setWidth 24 := by
  rw [← BitVec.toNat_inj, translateAddr_toNat, pageSelect_zero, BitVec.toNat_setWidth_of_le (by decide), and_3FFF_toNat]
  simp

/-- Addresses a whole number of pages apart are aliases through four zero registers (R119). -/
theorem translateAddr_zero_add {k : CpuAddr} (hk : k.toNat % 16384 = 0) (a : CpuAddr) :
    translateAddr MapFile.zero (a + k) = translateAddr MapFile.zero a := by
  refine (translateAddr_eq_iff ..).2 ⟨by rw [pageSelect_zero, pageSelect_zero], ?_⟩
  rw [BitVec.toNat_add]
  omega

end Sys2Proof.Machine
end

section
/-! ### The two writes of a mapping change -/

namespace Sys2Proof.Machine

/-- An IOW to a port that names a half writes that half, and nothing else (R67). -/
theorem exec_decodeIow_half {p : IoAddr} {q : Page} {g : Half} {s : State} (hp : decodePort portMap p = some (q, g))
    (hs : s.phase = .active) (d : Byte) : exec (decodeIow p d) s = .next (setMapHalf q g d s) := by
  rw [exec_decodeIow, whenActive_active hs, ioWrite_of_decodePort hp]

/-- An address of the page written translates through the register as the write leaves it (R45). -/
theorem translateAddr_setMapHalf_pageOf (a : CpuAddr) (h : Half) (b : Byte) (s : State) :
    translateAddr (setMapHalf (pageOf a) h b s).map a = shiftAndMask (withHalf h b (s.map.get (pageOf a))) a :=
  translateAddr_set_pageOf ..

/-- Writing the low half, then the high half, writes the value too (R123). -/
theorem setMapHalf_low_high (p : Page) (v : MapReg) (s : State) :
    setMapHalf p .high (halfOf .high v) (setMapHalf p .low (halfOf .low v) s) = { s with map := s.map.set p v } := by
  simp [setMapHalf, withHalf_high_low]

end Sys2Proof.Machine
end

section
/-! ### The power and reset events -/

namespace Sys2Proof.Machine

variable {s : State}

theorem exec_pwrup_active (hs : s.phase = .active) : exec .pwrup s = .next (powerOrReset resetClearsMap s) :=
  whenActive_active hs _

theorem exec_pwrdn_active (hs : s.phase = .active) : exec .pwrdn s = .next s := whenActive_active hs _

theorem exec_rst_active (hs : s.phase = .active) : exec .rst s = .next (powerOrReset resetClearsMap s) :=
  whenActive_active hs _

theorem exec_idle_active (hs : s.phase = .active) : exec .idle s = .next s := whenActive_active hs _

end Sys2Proof.Machine
end

section
/-! ### The statements of the family -/

namespace Sys2Proof.Machine

/-- Settles O25: LOAD leaves four zero registers, through which addresses 0x4000 apart are aliases in segment 0. -/
theorem allPagesAliasAfterLoad : Obligations.AllPagesAliasAfterLoad := by
  intro s hs hv
  refine ⟨_, exec_load_of_versionOk hs hv, fun a => ?_⟩
  have reaches {k : CpuAddr} (hk : k.toNat % 16384 = 0) :
      translateAddr MapFile.zero (a + k) = (a &&& 0x3FFF#16).setWidth 24 :=
    (translateAddr_zero_add hk a).trans (translateAddr_zero a)
  exact ⟨translateAddr_zero a, reaches (by decide), reaches (by decide), reaches (by decide)⟩

/-- Settles O42: the first write leaves the register's other half, which the second one replaces. -/
theorem mixedValueBetweenTwoWrites : Obligations.MixedValueBetweenTwoWrites := by
  rintro s _ v a hs rfl
  have hs' (h : Half) (b : Byte) : (setMapHalf (pageOf a) h b s).phase = .active := hs
  have high := decodePort_highPort (pageOf a)
  have low := decodePort_lowPort (pageOf a)
  refine ⟨⟨_, _, exec_decodeIow_half high hs _, exec_decodeIow_half low (hs' ..) _,
      translateAddr_setMapHalf_pageOf .., ?_⟩,
    ⟨_, _, exec_decodeIow_half low hs _, exec_decodeIow_half high (hs' ..) _,
      translateAddr_setMapHalf_pageOf .., ?_⟩⟩
  · rw [setMapHalf_high_low, translateAddr_set_pageOf]
  · rw [setMapHalf_low_high, translateAddr_set_pageOf]

/-- Settles O43: the answer of a LOAD that passes its check, read field by field. -/
theorem loadInitialisesTheBlock : Obligations.LoadInitialisesTheBlock := fun s hs hv =>
  ⟨_, exec_load_of_versionOk hs hv, rfl, MapFile.get_zero, (memRead_initialise · s), rfl, rfl, rfl⟩

/-- Settles O49: RST and PWRUP clear the registers or do nothing, as the parameter says, and it is false here. -/
theorem powerAndResetEventsKeepState : Obligations.PowerAndResetEventsKeepState := by
  refine ⟨fun s hs => ?_, fun s hs => ⟨exec_pwrup_active hs, exec_rst_active hs⟩, fun s => ?_⟩
  · rw [exec_pwrup_active hs, exec_pwrdn_active hs, exec_rst_active hs, exec_idle_active hs, powerOrReset_resetClearsMap]
    exact ⟨rfl, rfl, rfl, rfl⟩
  · rw [powerOrReset_true]
    exact ⟨MapFile.get_zero, rfl⟩

end Sys2Proof.Machine
end

/-! Proofs of the family 'other': the invariant, the draws of SEG_INIT, the empty queue and the spec's decode vectors.
First the laws they rest on, then the five statements. -/

section
/-! ### The draw and the invariant under each operation -/

namespace Sys2Proof.Machine

variable {i : Instr} {s t : State}

/-- Only LOAD draws: no effect on an ACTIVE block takes another draw (decision D14). -/
theorem ActiveEffect.draw_eq (h : ActiveEffect s t) : t.draw = s.draw := by
  rcases h with rfl | ⟨b, rfl⟩ | ⟨p, g, d, rfl⟩ | ⟨o, d, rfl⟩ | rfl <;> rfl

/-- The one effect that touches the store is a write, which keeps the canonical form (R14, R21). -/
theorem ActiveEffect.store_wf (h : ActiveEffect s t) (hs : s.store.wf) : t.store.wf := by
  rcases h with rfl | ⟨b, rfl⟩ | ⟨p, g, d, rfl⟩ | ⟨o, d, rfl⟩ | rfl
  · exact hs
  · exact hs
  · exact hs
  · exact memWrite_wf hs
  · exact hs

theorem inv_initialise (s : State) : Inv (initialise s) := ⟨Memory.nil_wf, fun _ => Nat.succ_pos s.draw⟩

/-- Every transaction that completes keeps the invariant: LOAD establishes it afresh or changes nothing it speaks of,
and the others keep the draw of the LOAD before them. -/
theorem exec_inv (hs : Inv s) (h : exec i s = .next t) : Inv t := by
  obtain ⟨hwf, hdraw⟩ := hs
  rcases exec_next_cases h with ⟨ha, -, he⟩ | ⟨-, -, ⟨-, rfl⟩ | ⟨-, rfl⟩⟩
  · refine ⟨he.store_wf hwf, fun _ => ?_⟩
    rw [he.draw_eq]
    exact hdraw ha
  · exact inv_initialise s
  · exact ⟨hwf, hdraw⟩

end Sys2Proof.Machine
end

section
/-! ### The statements of the family -/

namespace Sys2Proof.Machine

/-- Settles O10: a step waits, or takes a word, which the invariant does not speak of, and runs its transaction. -/
theorem stepKeepsInvariant : Obligations.StepKeepsInvariant := by
  intro s t hs h
  rcases step_next_cases h with ⟨-, rfl⟩ | ⟨r, rest, i, -, -, hi⟩
  · exact hs
  · have hacc : Inv (accept r rest s) := hs
    exact exec_inv hacc hi

/-- Settles O44: a LOAD takes the next draw or fails, by its version check; no other effect takes one. -/
theorem eachLoadTakesAFreshDraw : Obligations.EachLoadTakesAFreshDraw := by
  intro i s t h
  rcases exec_next_cases h with ⟨-, hl, he⟩ | ⟨-, rfl, ⟨hv, rfl⟩ | ⟨hv, rfl⟩⟩
  · rw [he.draw_eq, if_neg fun hload => hl hload.1]
  · simp [hv]
  · simp [hv]

/-- Settles O2: the empty queue is the case of `step` in which it waits. -/
theorem stepWithNothingPendingWaits : Obligations.StepWithNothingPendingWaits := fun _ => step_of_input_nil

/-- Settles O9: the decoder runs on the fifteen words. -/
theorem testVectorWordsDecode : Obligations.TestVectorWordsDecode := by
  unfold Obligations.TestVectorWordsDecode
  decide

/-- Settles O11: nothing is written before the first LOAD, and the block is UNLOADED. -/
theorem resetMeetsInvariant : Obligations.ResetMeetsInvariant := ⟨Memory.nil_wf, nofun⟩

end Sys2Proof.Machine
end
